-- ==== Sys2Proof/Word.lean ====
section
/-!
DEFINITION. The widths of the machine (spec/00_scope.md R5, R6): bytes, 16-bit words, 12-bit address immediates, and the
index of a general register. Every value is unsigned.
-/
namespace Sys2Proof

/-- A general register, a timer, a memory cell, an 8-bit immediate (R5 `REG_BITS`, `TIMER_BITS`). -/
abbrev Byte := BitVec 8

/-- An instruction word, `I`, `pc`, a return address (R5 `I_BITS`, `PC_BITS`, `WORD_BITS`, `STACK_ENTRY_BITS`). -/
abbrev Word := BitVec 16

/-- The immediate `nnn`, bits 11 to 0 of an instruction word (R51). -/
abbrev Addr12 := BitVec 12

/-- The index of a general register, `V0` to `VF` (R11). -/
abbrev Reg := Fin 16

/-- `V0`, the implicit offset register of `Bnnn` (R83). -/
abbrev Reg.v0 : Reg := 0

/-- `VF`, the flag register (R12). -/
abbrev Reg.vF : Reg := 15

/-- The high byte of a word, the one stored at the lower address (R34). -/
abbrev Word.hi (w : Word) : Byte := BitVec.ofNat 8 (w.toNat / 256)

/-- The low byte of a word, the one stored at the higher address (R34). -/
abbrev Word.lo (w : Word) : Byte := BitVec.ofNat 8 w.toNat

/-- `a ++ b`: two bytes as one word, the first in the high bits (R6, R34). -/
abbrev Word.ofBytes (hi lo : Byte) : Word := BitVec.ofNat 16 (hi.toNat * 256 + lo.toNat)

end Sys2Proof
end

