-- ==== Sys2Proof/Config.lean ====
section
/-!
DEFINITION. What is fixed for this hardware (the parameters of spec/00_scope.md R5) and the free values: constants
without a body, which nothing can evaluate and about whose value nothing can be proved. A free value is applied to the
counter `State.freeIndex`, so that each use takes a fresh one.
-/
namespace Sys2Proof.Config

/-- `MEM_SIZE`: 4096 bytes, addresses 0x000 to 0xFFF (R5, R30). -/
abbrev memSize : Nat := 0x1000

/-- `PC_RESET` (R5, R13). -/
abbrev pcReset : Word := 0x0200#16

/-- `STACK_DEPTH` (R5, decision D6). DESIGN CHOICE of the spec: "at least 16", taken as 16. Safe (log 13). -/
abbrev stackDepth : Nat := 16

/-- `FONT_BASE` (R5, R31). -/
abbrev fontBase : Nat := 0x050

/-- `FONT_CHAR_SIZE` (R5). -/
abbrev fontCharSize : Nat := 5

/-- The 80 bytes of the font table, 16 glyphs of 5 bytes (R5, R141). -/
abbrev fontSize : Nat := 80

/-- `PROG_BASE` (R5, R31). -/
abbrev progBase : Nat := 0x200

/-- The longest program image that has a meaning, 0x1000 - 0x200 bytes (R142). -/
abbrev progMax : Nat := 3584

/-- `FB_BASE` (R5, R31). -/
abbrev fbBase : Nat := 0xF00

/-- `FB_SIZE` (R5, R31). -/
abbrev fbSize : Nat := 256

/-- `DISP_W` (R5, R120). -/
abbrev dispW : Nat := 64

/-- `DISP_H` (R5, R120). -/
abbrev dispH : Nat := 32

/-- What a byte of memory reads as that nothing has written since reset: "created zero-filled at startup" (R170). -/
abbrev blankByte : Byte := 0#8

/-- FREE VALUE: the byte that the k-th draw from the random source gives (R101, R148, decision D25). Log 3. -/
opaque randomByte : Nat → Byte

/-- FREE VALUE: the general registers after the k-th fault (R155). Log 2. -/
opaque unspecifiedV : Nat → Vector Byte 16

/-- FREE VALUE: `I` after the k-th fault (R155). Log 2. -/
opaque unspecifiedI : Nat → Word

/-- FREE VALUE: `pc` after the k-th fault, "may or may not have been advanced" (R155). Log 2. -/
opaque unspecifiedPc : Nat → Word

/-- FREE VALUE: the return-address stack's entries after the k-th fault (R155). Log 2. -/
opaque unspecifiedStack : Nat → Vector Word 16

/-- FREE VALUE: the number of live stack entries after the k-th fault (R155). Log 2. -/
opaque unspecifiedSp : Nat → Fin 17

/-- FREE VALUE: the delay timer after the k-th fault (R155). Log 2. -/
opaque unspecifiedDT : Nat → Byte

/-- FREE VALUE: the sound timer after the k-th fault (R155). Log 2. -/
opaque unspecifiedST : Nat → Byte

/-- FREE VALUE: the key vector after the k-th fault (R155). Log 2. -/
opaque unspecifiedKeys : Nat → Vector Bool 16

/-- FREE VALUE: the byte at an address after the k-th fault (R155). Log 2. -/
opaque unspecifiedCell : Nat → Nat → Byte

/-- The customary CHIP-8 glyphs (spec/93_implementation_defined.md G1). PRESUMED: the spec does not assert that this
hardware uses them. No step reads this list; it is a default a host may pass to `load_font`. Log 17. -/
def customaryFont : List Byte :=
  [0xF0, 0x90, 0x90, 0x90, 0xF0,  0x20, 0x60, 0x20, 0x20, 0x70,  0xF0, 0x10, 0xF0, 0x80, 0xF0,  0xF0, 0x10, 0xF0, 0x10, 0xF0]
  ++ [0x90, 0x90, 0xF0, 0x10, 0x10,  0xF0, 0x80, 0xF0, 0x10, 0xF0,  0xF0, 0x80, 0xF0, 0x90, 0xF0,  0xF0, 0x10, 0x20, 0x40, 0x40]
  ++ [0xF0, 0x90, 0xF0, 0x90, 0xF0,  0xF0, 0x90, 0xF0, 0x10, 0xF0,  0xF0, 0x90, 0xF0, 0x90, 0x90,  0xE0, 0x90, 0xE0, 0x90, 0xE0]
  ++ [0xF0, 0x80, 0x80, 0x80, 0xF0,  0xE0, 0x90, 0x90, 0x90, 0xE0,  0xF0, 0x80, 0xF0, 0x80, 0xF0,  0xF0, 0x80, 0xF0, 0x80, 0x80]

end Sys2Proof.Config
end

