-- ==== Sys2Proof/Syntax.lean ====
section
/-!
DEFINITION. The instructions: one constructor for each of the 35 rows of spec/opcode_table.json (spec/30_encoding.md
R54), in the table's order. Register operands are indices 0 to 15, immediates are the bits of their field (R53).
-/
namespace Sys2Proof

/-- An instruction form with its operands (R54). -/
inductive Instr where
  /-- `0000` HALT (R74). -/
  | halt
  /-- `00E0` CLS (R121). -/
  | cls
  /-- `00EE` RET (R80). -/
  | ret
  /-- `1nnn` JP nnn (R81). -/
  | jp (nnn : Addr12)
  /-- `2nnn` CALL nnn (R82). -/
  | call (nnn : Addr12)
  /-- `3xnn` SE Vx, nn (R84). -/
  | seImm (x : Reg) (nn : Byte)
  /-- `4xnn` SNE Vx, nn (R85). -/
  | sneImm (x : Reg) (nn : Byte)
  /-- `5xy0` SE Vx, Vy (R86). -/
  | seReg (x y : Reg)
  /-- `6xnn` LD Vx, nn (R90). -/
  | ldImm (x : Reg) (nn : Byte)
  /-- `7xnn` ADD Vx, nn (R91). -/
  | addImm (x : Reg) (nn : Byte)
  /-- `8xy0` LD Vx, Vy (R92). -/
  | ldReg (x y : Reg)
  /-- `8xy1` OR Vx, Vy (R93). -/
  | orReg (x y : Reg)
  /-- `8xy2` AND Vx, Vy (R94). -/
  | andReg (x y : Reg)
  /-- `8xy3` XOR Vx, Vy (R95). -/
  | xorReg (x y : Reg)
  /-- `8xy4` ADD Vx, Vy (R96). -/
  | addReg (x y : Reg)
  /-- `8xy5` SUB Vx, Vy (R97). -/
  | sub (x y : Reg)
  /-- `8xy6` SHR Vx (R98); `y` is decoded and ignored. -/
  | shr (x y : Reg)
  /-- `8xy7` SUBN Vx, Vy (R99). -/
  | subn (x y : Reg)
  /-- `8xyE` SHL Vx (R100); `y` is decoded and ignored. -/
  | shl (x y : Reg)
  /-- `9xy0` SNE Vx, Vy (R87). -/
  | sneReg (x y : Reg)
  /-- `Annn` LD I, nnn (R110). -/
  | ldI (nnn : Addr12)
  /-- `Bnnn` JP V0, nnn (R83). -/
  | jpV0 (nnn : Addr12)
  /-- `Cxnn` RND Vx, nn (R101). -/
  | rnd (x : Reg) (nn : Byte)
  /-- `Dxyn` DRW Vx, Vy, n (R122); `n` is a number of rows, 0 to 15. -/
  | drw (x y : Reg) (n : Fin 16)
  /-- `Ex9E` SKP Vx (R133). -/
  | skp (x : Reg)
  /-- `ExA1` SKNP Vx (R134). -/
  | sknp (x : Reg)
  /-- `Fx07` LD Vx, DT (R130). -/
  | ldFromDT (x : Reg)
  /-- `Fx0A` LD Vx, K (R135). -/
  | ldKey (x : Reg)
  /-- `Fx15` LD DT, Vx (R131). -/
  | ldDT (x : Reg)
  /-- `Fx18` LD ST, Vx (R132). -/
  | ldST (x : Reg)
  /-- `Fx1E` ADD I, Vx (R111). -/
  | addI (x : Reg)
  /-- `Fx29` LD F, Vx (R112). -/
  | ldFont (x : Reg)
  /-- `Fx33` LD B, Vx (R113). -/
  | bcd (x : Reg)
  /-- `Fx55` LD [I], Vx (R114). -/
  | store (x : Reg)
  /-- `Fx65` LD Vx, [I] (R115). -/
  | load (x : Reg)
deriving DecidableEq, Repr

end Sys2Proof
end

