-- ==== Sys2Proof/Decode.lean ====
section
/-!
DEFINITION. The decoder (spec/30_encoding.md R51, R55), total on words and on byte strings, rejecting by name (R56),
and after it the encoder, written from the same table (R52, R54).
-/
namespace Sys2Proof

/-- `v[hi:lo]` for `hi = lo + width - 1`: a slice of a word as an unsigned number (R6). -/
def slice (w : Word) (lo width : Nat) : Nat := w.toNat / 2 ^ lo % 2 ^ width

/-- A slice of four bits as a number below 16. -/
def nibble (w : Word) (lo : Nat) : Fin 16 := ⟨slice w lo 4, Nat.mod_lt _ (by decide)⟩

/-- `mode`, bits 15 to 12 (R51). -/
def fieldMode (w : Word) : Nat := slice w 12 4

/-- `x`, bits 11 to 8 (R51). -/
def fieldX (w : Word) : Reg := nibble w 8

/-- `y`, bits 7 to 4 (R51). -/
def fieldY (w : Word) : Reg := nibble w 4

/-- `n`, bits 3 to 0 (R51). -/
def fieldN (w : Word) : Fin 16 := nibble w 0

/-- `nn`, bits 7 to 0 (R51). -/
def fieldNN (w : Word) : Byte := BitVec.ofNat 8 (slice w 0 8)

/-- `nnn`, bits 11 to 0 (R51). -/
def fieldNNN (w : Word) : Addr12 := BitVec.ofNat 12 (slice w 0 12)

/-- Why a word or a byte string is no instruction: the six classes of R56, and a byte string that ends too soon. -/
inductive Reject where
  /-- `0nnn` other than `0000`, `00E0`, `00EE` (decision D9). -/
  | mode0Word (w : Word)
  /-- `5xyn` with `n` not 0. -/
  | mode5Nibble (w : Word)
  /-- `8xyn` with `n` in 8, 9, A, B, C, D, F. -/
  | mode8SubOpcode (w : Word)
  /-- `9xyn` with `n` not 0. -/
  | mode9Nibble (w : Word)
  /-- `Exnn` with `nn` not 9E or A1. -/
  | modeESubOpcode (w : Word)
  /-- `Fxnn` with `nn` none of the nine sub-opcodes of mode F. -/
  | modeFSubOpcode (w : Word)
  /-- Fewer than two bytes: every instruction is one 16-bit word (R50). -/
  | truncated
deriving DecidableEq, Repr

/-- Mode 0: the whole word is compared (R55, decision D9). -/
def decodeMode0 (w : Word) : Except Reject Instr :=
  if w = 0x0000#16 then .ok .halt
  else if w = 0x00E0#16 then .ok .cls
  else if w = 0x00EE#16 then .ok .ret
  else .error (.mode0Word w)

/-- Mode 8: dispatch on `n` (R55; the digits 0 to 3 and 7 are the spec's decision D10). -/
def decodeMode8 (w : Word) : Except Reject Instr :=
  match (fieldN w).val with
  | 0x0 => .ok (.ldReg (fieldX w) (fieldY w))
  | 0x1 => .ok (.orReg (fieldX w) (fieldY w))
  | 0x2 => .ok (.andReg (fieldX w) (fieldY w))
  | 0x3 => .ok (.xorReg (fieldX w) (fieldY w))
  | 0x4 => .ok (.addReg (fieldX w) (fieldY w))
  | 0x5 => .ok (.sub (fieldX w) (fieldY w))
  | 0x6 => .ok (.shr (fieldX w) (fieldY w))
  | 0x7 => .ok (.subn (fieldX w) (fieldY w))
  | 0xE => .ok (.shl (fieldX w) (fieldY w))
  | _   => .error (.mode8SubOpcode w)

/-- Mode E: dispatch on `nn` (R55). -/
def decodeModeE (w : Word) : Except Reject Instr :=
  match slice w 0 8 with
  | 0x9E => .ok (.skp (fieldX w))
  | 0xA1 => .ok (.sknp (fieldX w))
  | _    => .error (.modeESubOpcode w)

/-- Mode F: dispatch on `nn` (R55). -/
def decodeModeF (w : Word) : Except Reject Instr :=
  match slice w 0 8 with
  | 0x07 => .ok (.ldFromDT (fieldX w))
  | 0x0A => .ok (.ldKey (fieldX w))
  | 0x15 => .ok (.ldDT (fieldX w))
  | 0x18 => .ok (.ldST (fieldX w))
  | 0x1E => .ok (.addI (fieldX w))
  | 0x29 => .ok (.ldFont (fieldX w))
  | 0x33 => .ok (.bcd (fieldX w))
  | 0x55 => .ok (.store (fieldX w))
  | 0x65 => .ok (.load (fieldX w))
  | _    => .error (.modeFSubOpcode w)

/-- The decode algorithm of R55: dispatch on `mode`, then on sub-fields in the modes 0, 5, 8, 9, E and F. The last arm
is mode F, the one value of `mode` (which is below 16) left. -/
def decode (w : Word) : Except Reject Instr :=
  match fieldMode w with
  | 0x0 => decodeMode0 w
  | 0x1 => .ok (.jp (fieldNNN w))
  | 0x2 => .ok (.call (fieldNNN w))
  | 0x3 => .ok (.seImm (fieldX w) (fieldNN w))
  | 0x4 => .ok (.sneImm (fieldX w) (fieldNN w))
  | 0x5 => if fieldN w = 0 then .ok (.seReg (fieldX w) (fieldY w)) else .error (.mode5Nibble w)
  | 0x6 => .ok (.ldImm (fieldX w) (fieldNN w))
  | 0x7 => .ok (.addImm (fieldX w) (fieldNN w))
  | 0x8 => decodeMode8 w
  | 0x9 => if fieldN w = 0 then .ok (.sneReg (fieldX w) (fieldY w)) else .error (.mode9Nibble w)
  | 0xA => .ok (.ldI (fieldNNN w))
  | 0xB => .ok (.jpV0 (fieldNNN w))
  | 0xC => .ok (.rnd (fieldX w) (fieldNN w))
  | 0xD => .ok (.drw (fieldX w) (fieldY w) (fieldN w))
  | 0xE => decodeModeE w
  | _   => decodeModeF w

/-- Decoding from a string of bytes: the first two, most significant first (R50), and the bytes that follow. -/
def decodeBytes : List Byte → Except Reject (Instr × List Byte)
  | hi :: lo :: rest =>
    match decode (Word.ofBytes hi lo) with
    | .ok i => .ok (i, rest)
    | .error e => .error e
  | _ => .error .truncated

/-- Format A: `mode` and `nnn` (R52). -/
def formatA (mode : Nat) (nnn : Addr12) : Word := BitVec.ofNat 16 (mode * 4096 + nnn.toNat)

/-- Format XN: `mode`, `x` and `nn` (R52). -/
def formatXN (mode : Nat) (x : Reg) (nn : Byte) : Word := BitVec.ofNat 16 (mode * 4096 + x.val * 256 + nn.toNat)

/-- Formats XY and XYN: `mode`, `x`, `y` and `n`, where `n` is the sub-opcode of format XY (R52). -/
def formatXYN (mode : Nat) (x y n : Fin 16) : Word := BitVec.ofNat 16 (mode * 4096 + x.val * 256 + y.val * 16 + n.val)

/-- The encoding of an instruction: the match value of its row of R54 with the operand fields put in. -/
def encode : Instr → Word
  | .halt          => 0x0000#16
  | .cls           => 0x00E0#16
  | .ret           => 0x00EE#16
  | .jp nnn        => formatA 0x1 nnn
  | .call nnn      => formatA 0x2 nnn
  | .seImm x nn    => formatXN 0x3 x nn
  | .sneImm x nn   => formatXN 0x4 x nn
  | .seReg x y     => formatXYN 0x5 x y 0x0
  | .ldImm x nn    => formatXN 0x6 x nn
  | .addImm x nn   => formatXN 0x7 x nn
  | .ldReg x y     => formatXYN 0x8 x y 0x0
  | .orReg x y     => formatXYN 0x8 x y 0x1
  | .andReg x y    => formatXYN 0x8 x y 0x2
  | .xorReg x y    => formatXYN 0x8 x y 0x3
  | .addReg x y    => formatXYN 0x8 x y 0x4
  | .sub x y       => formatXYN 0x8 x y 0x5
  | .shr x y       => formatXYN 0x8 x y 0x6
  | .subn x y      => formatXYN 0x8 x y 0x7
  | .shl x y       => formatXYN 0x8 x y 0xE
  | .sneReg x y    => formatXYN 0x9 x y 0x0
  | .ldI nnn       => formatA 0xA nnn
  | .jpV0 nnn      => formatA 0xB nnn
  | .rnd x nn      => formatXN 0xC x nn
  | .drw x y n     => formatXYN 0xD x y n
  | .skp x         => formatXN 0xE x 0x9E
  | .sknp x        => formatXN 0xE x 0xA1
  | .ldFromDT x    => formatXN 0xF x 0x07
  | .ldKey x       => formatXN 0xF x 0x0A
  | .ldDT x        => formatXN 0xF x 0x15
  | .ldST x        => formatXN 0xF x 0x18
  | .addI x        => formatXN 0xF x 0x1E
  | .ldFont x      => formatXN 0xF x 0x29
  | .bcd x         => formatXN 0xF x 0x33
  | .store x       => formatXN 0xF x 0x55
  | .load x        => formatXN 0xF x 0x65

/-- The two bytes of an instruction in the order memory holds them, most significant first (R50). -/
def encodeBytes (i : Instr) : List Byte := [(encode i).hi, (encode i).lo]

/-- A row of the opcode table: a word `w` is the form when `w & mask = match` (R54). -/
structure OpcodeRow where
  mask : Word
  value : Word
deriving DecidableEq, Repr

/-- The row of R54 that an instruction belongs to. -/
def Instr.row : Instr → OpcodeRow
  | .halt         => ⟨0xFFFF, 0x0000⟩
  | .cls          => ⟨0xFFFF, 0x00E0⟩
  | .ret          => ⟨0xFFFF, 0x00EE⟩
  | .jp _         => ⟨0xF000, 0x1000⟩
  | .call _       => ⟨0xF000, 0x2000⟩
  | .seImm _ _    => ⟨0xF000, 0x3000⟩
  | .sneImm _ _   => ⟨0xF000, 0x4000⟩
  | .seReg _ _    => ⟨0xF00F, 0x5000⟩
  | .ldImm _ _    => ⟨0xF000, 0x6000⟩
  | .addImm _ _   => ⟨0xF000, 0x7000⟩
  | .ldReg _ _    => ⟨0xF00F, 0x8000⟩
  | .orReg _ _    => ⟨0xF00F, 0x8001⟩
  | .andReg _ _   => ⟨0xF00F, 0x8002⟩
  | .xorReg _ _   => ⟨0xF00F, 0x8003⟩
  | .addReg _ _   => ⟨0xF00F, 0x8004⟩
  | .sub _ _      => ⟨0xF00F, 0x8005⟩
  | .shr _ _      => ⟨0xF00F, 0x8006⟩
  | .subn _ _     => ⟨0xF00F, 0x8007⟩
  | .shl _ _      => ⟨0xF00F, 0x800E⟩
  | .sneReg _ _   => ⟨0xF00F, 0x9000⟩
  | .ldI _        => ⟨0xF000, 0xA000⟩
  | .jpV0 _       => ⟨0xF000, 0xB000⟩
  | .rnd _ _      => ⟨0xF000, 0xC000⟩
  | .drw _ _ _    => ⟨0xF000, 0xD000⟩
  | .skp _        => ⟨0xF0FF, 0xE09E⟩
  | .sknp _       => ⟨0xF0FF, 0xE0A1⟩
  | .ldFromDT _   => ⟨0xF0FF, 0xF007⟩
  | .ldKey _      => ⟨0xF0FF, 0xF00A⟩
  | .ldDT _       => ⟨0xF0FF, 0xF015⟩
  | .ldST _       => ⟨0xF0FF, 0xF018⟩
  | .addI _       => ⟨0xF0FF, 0xF01E⟩
  | .ldFont _     => ⟨0xF0FF, 0xF029⟩
  | .bcd _        => ⟨0xF0FF, 0xF033⟩
  | .store _      => ⟨0xF0FF, 0xF055⟩
  | .load _       => ⟨0xF0FF, 0xF065⟩

/-- The 35 rows of R54, in the table's order. -/
def opcodeTable : List OpcodeRow :=
  [⟨0xFFFF, 0x0000⟩, ⟨0xFFFF, 0x00E0⟩, ⟨0xFFFF, 0x00EE⟩, ⟨0xF000, 0x1000⟩, ⟨0xF000, 0x2000⟩, ⟨0xF000, 0x3000⟩, ⟨0xF000, 0x4000⟩]
  ++ [⟨0xF00F, 0x5000⟩, ⟨0xF000, 0x6000⟩, ⟨0xF000, 0x7000⟩, ⟨0xF00F, 0x8000⟩, ⟨0xF00F, 0x8001⟩, ⟨0xF00F, 0x8002⟩, ⟨0xF00F, 0x8003⟩]
  ++ [⟨0xF00F, 0x8004⟩, ⟨0xF00F, 0x8005⟩, ⟨0xF00F, 0x8006⟩, ⟨0xF00F, 0x8007⟩, ⟨0xF00F, 0x800E⟩, ⟨0xF00F, 0x9000⟩, ⟨0xF000, 0xA000⟩]
  ++ [⟨0xF000, 0xB000⟩, ⟨0xF000, 0xC000⟩, ⟨0xF000, 0xD000⟩, ⟨0xF0FF, 0xE09E⟩, ⟨0xF0FF, 0xE0A1⟩, ⟨0xF0FF, 0xF007⟩, ⟨0xF0FF, 0xF00A⟩]
  ++ [⟨0xF0FF, 0xF015⟩, ⟨0xF0FF, 0xF018⟩, ⟨0xF0FF, 0xF01E⟩, ⟨0xF0FF, 0xF029⟩, ⟨0xF0FF, 0xF033⟩, ⟨0xF0FF, 0xF055⟩, ⟨0xF0FF, 0xF065⟩]

/-- The 16-bit word that a table word of `nbits` bits stands for: its bits from `nbits` up are 0, and no instruction has
more than 16 (R50). -/
def tableWord (nbits w : Nat) : Word := BitVec.ofNat 16 (w % 2 ^ nbits)

/-- The instruction the decoder reads from a word numbered as spec/opcode_table.json numbers it, laid out as two bytes,
most significant first (R50). -/
def decodeTableWord (nbits w : Nat) : Option Instr :=
  match decodeBytes [(tableWord nbits w).hi, (tableWord nbits w).lo] with
  | .ok (i, _) => some i
  | .error _ => none

end Sys2Proof
end

