-- ==== Sys2Proof/Machine/State.lean ====
section
/-!
DEFINITION. The state of the core (spec/10_state.md R10 to R20) as plain data, the reasons a step or a transaction can
stop, and the state after reset (spec/70_reset_and_hazards.md R170).
-/
namespace Sys2Proof.Machine

/-- Memory: (address, byte) pairs, addresses strictly rising, no byte equal to `Config.blankByte`, which is what an
address without a pair reads as (`Memory.wf` in Machine/Ops.lean). -/
abbrev Memory := List Host.Cell

/-- `status` (R18): the document's running and halted, and FAULTED, which holds its fatal conditions (decision D1). -/
inductive Status where
  | running
  | halted
  | faulted
deriving DecidableEq, Repr

/-- `cause` (R18): the five faults of spec/60_exceptions.md R150. -/
inductive Cause where
  /-- The fetched word is illegal (R56). -/
  | decodeError
  /-- `00EE` with an empty stack (R80). -/
  | stackUnderflow
  /-- `2nnn` with 16 live entries (R82). -/
  | stackOverflow
  /-- An access that includes an address above 0xFFF (R35). -/
  | addressOutOfRange
  /-- `Ex9E`, `ExA1` with a key index above 15 (R133, R134, decision D16). -/
  | keyIndexOutOfRange
deriving DecidableEq, Repr

/-- The advisory information that goes with a cause (R150). DESIGN CHOICE: a model may omit it; this one keeps it
(log 7). -/
inductive Advisory where
  /-- No information: no fault yet, or a stack fault. -/
  | nothing
  /-- DecodeError: the word and the address it was fetched from. -/
  | fetched (w : Word) (addr : Word)
  /-- AddressOutOfRange: the lowest offending address. -/
  | address (addr : Nat)
  /-- KeyIndexOutOfRange: the index. -/
  | key (k : Byte)
deriving DecidableEq, Repr

/-- The complete state (R10), and three fields that are not in R10's table: `advisory` (R147, R150), `initialising`
(R140) and the model's own `freeIndex`. -/
structure State where
  /-- `V0` to `VF` (R11, R12). -/
  V : Vector Byte 16
  /-- The index register (R14). -/
  I : Word
  /-- The program counter (R13). -/
  pc : Word
  /-- The return-address stack's entries; those at `sp` and above are dead (R15). -/
  stack : Vector Word 16
  /-- The number of live entries, 0 to 16 (R15). -/
  sp : Fin 17
  /-- The delay timer (R16). -/
  DT : Byte
  /-- The sound timer (R16). -/
  ST : Byte
  /-- Which of the 16 logical keys are held (R17). -/
  keys : Vector Bool 16
  /-- Running, halted or faulted (R18). -/
  status : Status
  /-- The fault's cause, meaningful only when `status` is faulted (R18). -/
  cause : Cause
  /-- The 4096 bytes (R19). -/
  mem : Memory
  /-- The advisory information of the last fault (R147, R150). Log 7. -/
  advisory : Advisory
  /-- In "the interval between a `reset` and the first `step` after it" (R140). DEDUCED, log 9. -/
  initialising : Bool
  /-- The MODEL's own: which free value comes next. No part of the hardware. Log 4. -/
  freeIndex : Nat
deriving DecidableEq, Repr

/-- The reasons for `Host.Outcome.fault`. There is none: the spec's five faults are states (`Status.faulted` with a
`Cause`), so a step that raises one answers a next state (R155, log 1), and no step and no transaction of this machine
ends in a host-level fault. Nobody raises it; safe. -/
inductive Fault where
deriving DecidableEq, Repr

/-- The reasons for `Host.Outcome.refused`. -/
inductive Refusal where
  /-- An instruction without a meaning. Only an arm of `exec` may answer it, and none does. Safe. -/
  | notModelled (mnemonic : String)
  /-- `load_font` of a length other than 80 (R141, decision D23). Raised by that transaction. Safe. -/
  | fontLength
  /-- `load_program` of more than 3584 bytes (R142, decision D23). Raised by that transaction. Safe. -/
  | programLength
  /-- `host_read` or `host_write` outside 0x000 to 0xFFF (R143). Raised by those transactions. Safe. -/
  | hostAddress
  /-- `load_font`, `load_program` or `host_write` after the first `step` (R140, R143, decision D22). Raised by those
  transactions. Unsafe in one respect: a host that writes later has no run in the model (log 9). -/
  | notInitialising
deriving DecidableEq, Repr

/-- The machine right after `reset` (R170). R170 gives every value but three: the dead stack entries (DESIGN CHOICE 0,
log 5), `cause` (DESIGN CHOICE DecodeError, log 6), and the model's `advisory` and `freeIndex` (DESIGN CHOICE nothing and
0, logs 7 and 4). -/
def State.reset : State where
  V := Vector.replicate 16 0#8
  I := 0#16
  pc := Config.pcReset
  stack := Vector.replicate 16 0#16
  sp := 0
  DT := 0#8
  ST := 0#8
  keys := Vector.replicate 16 false
  status := .running
  cause := .decodeError
  mem := []
  advisory := .nothing
  initialising := true
  freeIndex := 0

end Sys2Proof.Machine
end

