-- ==== Sys2Proof/WellFormed.lean ====
section
/-!
DEFINITION. What is well-formed. An instruction is well-formed by its type: a register operand is an index below 16,
an immediate has exactly the bits of its field, and every value of every field is legal in the 35 forms ("the 4-bit
fields select any of the 16", spec/10_state.md R11; no reserved-but-ignored encodings, spec/30_encoding.md R57), so no
check on an instruction is left to write. What can be ill-formed is what the host hands to the core: a font, a program
image, an address (spec/46_host_transactions.md R141 to R143). The transactions refuse those by name.
-/
namespace Sys2Proof

/-- The contract of `load_font` is 80 bytes (R141, decision D23). -/
def fontWellFormed (bytes : List Byte) : Bool := bytes.length == Config.fontSize

/-- A program image is at most 0x1000 - 0x200 = 3584 bytes long; its length need not be even (R142, decision D23). -/
def imageWellFormed (bytes : List Byte) : Bool := decide (bytes.length ≤ Config.progMax)

/-- The valid addresses are exactly 0x000 to 0xFFF (spec/20_memory.md R30; R143 for the host's accesses). -/
def addressWellFormed (addr : Nat) : Bool := decide (addr < Config.memSize)

end Sys2Proof
end

