-- ==== Sys2Proof/Machine/Ops.lean ====
section
/-!
DEFINITION. The named operations: memory (spec/20_memory.md R30 to R35), the writes of one state element, the
return-address stack, the draw of a random byte, raising a fault (spec/60_exceptions.md R155) and what leaves it again
(R156: only reset).
-/
namespace Sys2Proof.Machine

/-- What every transaction and every meaning answers. -/
abbrev Result := Host.Outcome State Fault Refusal

/-! ## Memory -/

/-- The byte at an address: the one listed for it, else what memory holds since reset (R19, R170). -/
def Memory.read : Memory → Nat → Byte
  | [], _ => Config.blankByte
  | c :: m, a => if c.1 = a then c.2 else Memory.read m a

/-- Memory without a listed byte for an address. -/
def Memory.erase : Memory → Nat → Memory
  | [], _ => []
  | c :: m, a => if c.1 = a then Memory.erase m a else c :: Memory.erase m a

/-- Memory with a pair put in at its place in the order. -/
def Memory.insert : Memory → Nat → Byte → Memory
  | [], a, v => [(a, v)]
  | c :: m, a, v => if a < c.1 then (a, v) :: c :: m else c :: Memory.insert m a v

/-- `mem[a] <- v` (R33). Writing the blank byte takes the pair away, so that equal memories are equal lists. -/
def Memory.write (m : Memory) (a : Nat) (v : Byte) : Memory :=
  if v = Config.blankByte then m.erase a else (m.erase a).insert a v

/-- The canonical form of memory: addresses strictly rising, every address valid (R30), no blank byte listed. -/
abbrev Memory.wf (m : Memory) : Prop :=
  m.Pairwise (fun c d => c.1 < d.1) ∧ ∀ c ∈ m, c.1 < Config.memSize ∧ c.2 ≠ Config.blankByte

/-- The memory whose byte at each valid address `a` is `f a`. -/
@[irreducible] def Memory.ofCells (f : Nat → Byte) : Memory :=
  (List.range Config.memSize).filterMap (fun a => if f a = Config.blankByte then none else some (a, f a))

/-- Bytes written at consecutive addresses from `a` on, without a bounds check: the loaders' copy (R141, R142). -/
def Memory.writeAll : Memory → Nat → List Byte → Memory
  | m, _, [] => m
  | m, a, b :: bs => Memory.writeAll (m.write a b) (a + 1) bs

/-- The bytes at `count` consecutive addresses from `a` on. -/
def Memory.readAll (m : Memory) (a count : Nat) : List Byte := (List.range count).map (fun k => m.read (a + k))

/-! ## Faults as values -/

/-- A fault about to be raised: `raise <Fault>(info)` (R7, R150). -/
structure Trap where
  cause : Cause
  info : Advisory
deriving DecidableEq, Repr

/-- `AddressOutOfRange(b)`, `b` the lowest offending address (R35). -/
def Trap.outOfRange (b : Nat) : Trap := ⟨.addressOutOfRange, .address b⟩

/-- `DecodeError(w)`, with the address the word was fetched from (R56, R150). -/
def Trap.illegal (w addr : Word) : Trap := ⟨.decodeError, .fetched w addr⟩

/-- `StackUnderflow()` (R80). -/
def Trap.underflow : Trap := ⟨.stackUnderflow, .nothing⟩

/-- `StackOverflow()` (R82). -/
def Trap.overflow : Trap := ⟨.stackOverflow, .nothing⟩

/-- `KeyIndexOutOfRange(k)` (R133, R134). -/
def Trap.keyIndex (k : Byte) : Trap := ⟨.keyIndexOutOfRange, .key k⟩

/-! ## The checked accessors (R7, R33 to R35) -/

/-- The bounds check of an access of `n` bytes at `addr`: every byte at or below 0xFFF, else `AddressOutOfRange` of the
lowest address of the access above it (R35). -/
def checkAccess (addr n : Nat) : Except Trap Unit :=
  if addr + n ≤ Config.memSize then .ok () else .error (.outOfRange (max addr Config.memSize))

/-- `MemRead(addr, 1)` (R33). -/
def memRead (m : Memory) (addr : Nat) : Except Trap Byte :=
  match checkAccess addr 1 with
  | .ok () => .ok (m.read addr)
  | .error t => .error t

/-- `MemRead(addr, 2)`, big-endian (R34). -/
def memRead16 (m : Memory) (addr : Nat) : Except Trap Word :=
  match checkAccess addr 2 with
  | .ok () => .ok (Word.ofBytes (m.read addr) (m.read (addr + 1)))
  | .error t => .error t

/-- `MemWrite(addr, 1, v)` (R33). -/
def memWrite (m : Memory) (addr : Nat) (v : Byte) : Except Trap Memory :=
  match checkAccess addr 1 with
  | .ok () => .ok (m.write addr v)
  | .error t => .error t

/-- `MemWrite(addr, 2, v)`, big-endian (R34). No instruction and no transaction uses it. -/
def memWrite16 (m : Memory) (addr : Nat) (v : Word) : Except Trap Memory :=
  match checkAccess addr 2 with
  | .ok () => .ok ((m.write addr v.hi).write (addr + 1) v.lo)
  | .error t => .error t

/-- One `MemWrite` after the other at consecutive addresses; the first that is out of range raises. -/
def storeBytes : Memory → Nat → List Byte → Except Trap Memory
  | m, _, [] => .ok m
  | m, addr, b :: bs =>
    match memWrite m addr b with
    | .ok m' => storeBytes m' (addr + 1) bs
    | .error t => .error t

/-- `n` bytes read by one `MemRead` after the other at consecutive addresses; the first that is out of range raises. -/
def loadBytes (m : Memory) : Nat → Nat → Except Trap (List Byte)
  | _, 0 => .ok []
  | addr, n + 1 =>
    match memRead m addr with
    | .error t => .error t
    | .ok b =>
      match loadBytes m (addr + 1) n with
      | .ok bs => .ok (b :: bs)
      | .error t => .error t

/-! ## The write of one state element -/

/-- `V[x] <- v` (R7). -/
def State.setV (s : State) (x : Reg) (v : Byte) : State := { s with V := s.V.set x v }

/-- `I <- v` (R14). -/
def State.setI (s : State) (v : Word) : State := { s with I := v }

/-- `pc <- v` (R13). -/
def State.setPc (s : State) (v : Word) : State := { s with pc := v }

/-- `DT <- v` (R16). -/
def State.setDT (s : State) (v : Byte) : State := { s with DT := v }

/-- `ST <- v` (R16). -/
def State.setST (s : State) (v : Byte) : State := { s with ST := v }

/-- `keys <- k`, all sixteen at once (R17). -/
def State.setKeys (s : State) (k : Vector Bool 16) : State := { s with keys := k }

/-- Memory replaced by what its accessors made of it. -/
def State.setMem (s : State) (m : Memory) : State := { s with mem := m }

/-- `status <- HALTED` (R74). -/
def State.halt (s : State) : State := { s with status := .halted }

/-- `skip`: `pc <- (pc + 2) mod 65536` (R7). -/
def State.skip (s : State) : State := s.setPc (s.pc + 2#16)

/-- The first registers replaced by a list of bytes, `V0` first; the registers beyond the list keep their value. -/
def State.setRegs (s : State) (bs : List Byte) : State :=
  { s with V := Vector.ofFn (fun k => bs.getD k.val (s.V.get k)) }

/-! ## The return-address stack (R15) -/

/-- Push: at `sp = STACK_DEPTH` the fault StackOverflow (R82). -/
def State.push (s : State) (v : Word) : Except Trap State :=
  if h : s.sp.val < Config.stackDepth then
    .ok { s with stack := s.stack.set s.sp.val v, sp := ⟨s.sp.val + 1, Nat.succ_lt_succ h⟩ }
  else .error .overflow

/-- Pop: at `sp = 0` the fault StackUnderflow (R80). The entry above the new `sp` is dead and stays as it is (R15). -/
def State.pop (s : State) : Except Trap (Word × State) :=
  if h : 0 < s.sp.val then
    .ok (s.stack[s.sp.val - 1]'(by have := s.sp.isLt; omega),
      { s with sp := ⟨s.sp.val - 1, by have := s.sp.isLt; omega⟩ })
  else .error .underflow

/-! ## Free values -/

/-- `draw_random_byte()`: a free byte, a new one at each draw (R148). Log 3. -/
def State.drawRandom (s : State) : Byte × State :=
  (Config.randomByte s.freeIndex, { s with freeIndex := s.freeIndex + 1 })

/-- Every state element other than `status` and `cause` unspecified (R155): a free value in each. `advisory` and
`initialising` are no elements of R10 and stay. Log 2. -/
def State.unspecified (s : State) : State :=
  { s with
    V := Config.unspecifiedV s.freeIndex
    I := Config.unspecifiedI s.freeIndex
    pc := Config.unspecifiedPc s.freeIndex
    stack := Config.unspecifiedStack s.freeIndex
    sp := Config.unspecifiedSp s.freeIndex
    DT := Config.unspecifiedDT s.freeIndex
    ST := Config.unspecifiedST s.freeIndex
    keys := Config.unspecifiedKeys s.freeIndex
    mem := Memory.ofCells (Config.unspecifiedCell s.freeIndex)
    freeIndex := s.freeIndex + 1 }

/-! ## Taking a fault, and leaving it -/

/-- Fault entry (R155): `status <- FAULTED`, `cause <- <Fault>`; no state is saved, no handler entered, no pc redirected;
every other element is unspecified. The step that raised it has ended initialisation. -/
def State.takeFault (s : State) (t : Trap) : State :=
  { s.unspecified with status := .faulted, cause := t.cause, advisory := t.info, initialising := false }

/-- `raise`: the step ends at once, in the faulted state (R155). This is a NEXT state (log 1). -/
def raise (s : State) (t : Trap) : Result := .next (s.takeFault t)

/-- The end of a meaning that may raise: its state, or the fault's. `s` is the state the meaning began in. -/
def settle (s : State) : Except Trap State → Result
  | .ok t => .next t
  | .error t => raise s t

/-- There is no return from a fault (R156): what leaves FAULTED (and HALTED) is `reset`, which puts every element at its
reset value (R170). The model's own counter of free values goes on, so that no free value comes twice. -/
def State.resetFrom (s : State) : State := { State.reset with freeIndex := s.freeIndex }

end Sys2Proof.Machine
end

