-- ==== Sys2Proof/Machine/Cycle.lean ====
section
/-!
DEFINITION. What a `step` does around the execute phase (spec/40_step_cycle.md R70): fetch, advance, decode; and the
placing of one instruction word where the next fetch reads it.
-/
namespace Sys2Proof.Machine

/-- Phase 1, fetch: the big-endian word at `pc`; AddressOutOfRange if `pc > 0xFFE` (R70). -/
def fetchWord (s : State) : Except Trap Word := memRead16 s.mem s.pc.toNat

/-- Phase 2, advance: `pc <- (pc + 2) mod 65536`, before decode and execute (R70). The first step ends initialisation
(R140). -/
def advance (s : State) : State := { s with pc := s.pc + 2#16, initialising := false }

/-- Phases 1, 3 and 4: the instruction at `pc`, or the fault that precedes its execution (R70, R153). The decoder's
address is that of the fetch (R150). -/
def fetchInstr (s : State) : Except Trap Instr :=
  match fetchWord s with
  | .error t => .error t
  | .ok w =>
    match decode w with
    | .ok i => .ok i
    | .error _ => .error (.illegal w s.pc)

/-- The address the next step fetches from, if it can: `pc` at or below 0xFFE (R70), else where `pc` is after reset. -/
def fetchablePc (s : State) : Word := if s.pc.toNat + 2 ≤ Config.memSize then s.pc else Config.pcReset

/-- A table word stored where the next step fetches, most significant byte first (R50). A core that is not running, or
whose `pc` no fetch can use, is set running, with `pc` at its reset value (log 12); nothing else changes. -/
def placeFetchWord (s : State) (nbits w : Nat) : State :=
  { s with
    status := .running
    pc := fetchablePc s
    mem := (s.mem.write (fetchablePc s).toNat (tableWord nbits w).hi).write ((fetchablePc s).toNat + 1) (tableWord nbits w).lo }

end Sys2Proof.Machine
end

