-- ==== Sys2Proof/Machine/Operands.lean ====
section
/-!
DEFINITION. The operand forms (spec/30_encoding.md R53, spec/43_index_and_memory.md's addressing paragraph): registers,
zero-extended immediates, the effective address `I + k`, a list of registers, a key index, the lowest held key.
-/
namespace Sys2Proof.Machine

/-- The value of a register operand, `V[x]` (R7, R11). -/
def State.reg (s : State) (x : Reg) : Byte := s.V.get x

/-- `zext_16(nnn)` (R53). -/
def zext12 (nnn : Addr12) : Word := BitVec.ofNat 16 nnn.toNat

/-- `zext_16` of a register's value. -/
def zext8 (v : Byte) : Word := BitVec.ofNat 16 v.toNat

/-- The effective address `I + k`: a natural, not wrapped at 16 bits and not masked to 12 (R35). -/
def State.effAddr (s : State) (k : Nat) : Nat := s.I.toNat + k

/-- The values of `V0` to `Vx`, in order (R114). -/
def State.regsUpTo (s : State) (x : Reg) : List Byte := s.V.toList.take (x.val + 1)

/-- Whether the key a register names is held; `KeyIndexOutOfRange` above 15 (R133, R134). -/
def State.keyHeld (s : State) (k : Byte) : Except Trap Bool :=
  if h : k.toNat < 16 then .ok s.keys[k.toNat] else .error (.keyIndex k)

/-- The least `k` in 0..15 with `keys[k]`, if there is one (R135). -/
def State.lowestKey (s : State) : Option (Fin 16) := (List.finRange 16).find? (fun k => s.keys.get k)

end Sys2Proof.Machine
end

