-- ==== Sys2Proof/Machine/Flags.lean ====
section
/-!
DEFINITION. The values VF receives (spec/10_state.md R12) and the order every flag-writing form keeps: both operands
read, the result stored in Vx, VF written last.
-/
namespace Sys2Proof.Machine

/-- A flag's value: exactly 0 or 1. -/
def flagByte (b : Bool) : Byte := if b then 1#8 else 0#8

/-- `8xy4`: 1 if `Vx + Vy > 255` (R96). -/
def carryFlag (a b : Byte) : Byte := flagByte (decide (255 < a.toNat + b.toNat))

/-- `8xy5`, `8xy7`: 1 if the minuend is at least the subtrahend, that is when there is NO borrow (R97, R99). -/
def noBorrowFlag (minuend subtrahend : Byte) : Byte := flagByte (decide (subtrahend.toNat ≤ minuend.toNat))

/-- `8xy6`: the bit shifted out, bit 0 of the original Vx (R98). -/
def shiftedOutLow (a : Byte) : Byte := flagByte (a.getLsbD 0)

/-- `8xyE`: the bit shifted out, bit 7 of the original Vx (R100). -/
def shiftedOutHigh (a : Byte) : Byte := flagByte (a.getLsbD 7)

/-- The result to Vx, then the flag to VF, last: when `x = F` the flag overwrites the result (R12). -/
def State.setResultAndFlag (s : State) (x : Reg) (result flag : Byte) : State := (s.setV x result).setV .vF flag

end Sys2Proof.Machine
end

