-- ==== Sys2Proof/Machine/Alu.lean ====
section
/-!
DEFINITION. Register load, immediate add, register ALU, random (spec/42_load_and_alu.md R90 to R102). `BitVec` addition
and subtraction are the spec's sums and differences modulo 256 (R102).
-/
namespace Sys2Proof.Machine

/-- `6xnn` LD Vx, nn (R90). -/
def execLdImm (x : Reg) (nn : Byte) (s : State) : Result := .next (s.setV x nn)

/-- `7xnn` ADD Vx, nn: no flag effect (R91). -/
def execAddImm (x : Reg) (nn : Byte) (s : State) : Result := .next (s.setV x (s.reg x + nn))

/-- `8xy0` LD Vx, Vy (R92). -/
def execLdReg (x y : Reg) (s : State) : Result := .next (s.setV x (s.reg y))

/-- `8xy1` OR Vx, Vy; VF is no flag here (R93, decision D11). -/
def execOrReg (x y : Reg) (s : State) : Result := .next (s.setV x (s.reg x ||| s.reg y))

/-- `8xy2` AND Vx, Vy (R94, decision D11). -/
def execAndReg (x y : Reg) (s : State) : Result := .next (s.setV x (s.reg x &&& s.reg y))

/-- `8xy3` XOR Vx, Vy (R95, decision D11). -/
def execXorReg (x y : Reg) (s : State) : Result := .next (s.setV x (s.reg x ^^^ s.reg y))

/-- `8xy4` ADD Vx, Vy; VF is the carry, written last (R96). -/
def execAddReg (x y : Reg) (s : State) : Result :=
  .next (s.setResultAndFlag x (s.reg x + s.reg y) (carryFlag (s.reg x) (s.reg y)))

/-- `8xy5` SUB Vx, Vy; VF is 1 when there is no borrow (R97). -/
def execSub (x y : Reg) (s : State) : Result :=
  .next (s.setResultAndFlag x (s.reg x - s.reg y) (noBorrowFlag (s.reg x) (s.reg y)))

/-- `8xy6` SHR Vx: in place, `y` is not read (R98, decision D12). -/
def execShr (x : Reg) (s : State) : Result :=
  .next (s.setResultAndFlag x (s.reg x >>> 1) (shiftedOutLow (s.reg x)))

/-- `8xy7` SUBN Vx, Vy: the minuend is Vy, the result goes to Vx (R99). -/
def execSubn (x y : Reg) (s : State) : Result :=
  .next (s.setResultAndFlag x (s.reg y - s.reg x) (noBorrowFlag (s.reg y) (s.reg x)))

/-- `8xyE` SHL Vx: in place, `y` is not read (R100, decision D12). -/
def execShl (x : Reg) (s : State) : Result :=
  .next (s.setResultAndFlag x (s.reg x <<< 1) (shiftedOutHigh (s.reg x)))

/-- `Cxnn` RND Vx, nn: a free byte and `nn` (R101, R148, decision D25). -/
def execRnd (x : Reg) (nn : Byte) (s : State) : Result :=
  .next (s.drawRandom.2.setV x (s.drawRandom.1 &&& nn))

end Sys2Proof.Machine
end

