-- ==== Sys2Proof/Machine/Control.lean ====
section
/-!
DEFINITION. The halt word and the control transfers (spec/40_step_cycle.md R74, spec/41_control_flow.md R80 to R87). A
meaning runs after the fetch and the advance of R70, so `s.pc` is the address of the instruction plus 2.
-/
namespace Sys2Proof.Machine

/-- A taken skip adds a further 2 to `pc` (R84 to R87, R133, R134). -/
def skipIf (c : Bool) (s : State) : State := if c then s.skip else s

/-- `0000` HALT: `status <- HALTED` and no further effect (R74). -/
def execHalt (s : State) : Result := .next s.halt

/-- `00EE` RET: pop the return address into `pc`; StackUnderflow on an empty stack (R80). -/
def execRet (s : State) : Result :=
  settle s (match s.pop with
    | .ok (a, t) => .ok (t.setPc a)
    | .error t => .error t)

/-- `1nnn` JP nnn (R81). -/
def execJp (nnn : Addr12) (s : State) : Result := .next (s.setPc (zext12 nnn))

/-- `2nnn` CALL nnn: push the advanced `pc`, then jump; StackOverflow at 16 live entries (R82). -/
def execCall (nnn : Addr12) (s : State) : Result :=
  settle s (match s.push s.pc with
    | .ok t => .ok (t.setPc (zext12 nnn))
    | .error t => .error t)

/-- `3xnn` SE Vx, nn (R84). -/
def execSeImm (x : Reg) (nn : Byte) (s : State) : Result := .next (skipIf (s.reg x == nn) s)

/-- `4xnn` SNE Vx, nn (R85). -/
def execSneImm (x : Reg) (nn : Byte) (s : State) : Result := .next (skipIf (s.reg x != nn) s)

/-- `5xy0` SE Vx, Vy (R86). -/
def execSeReg (x y : Reg) (s : State) : Result := .next (skipIf (s.reg x == s.reg y) s)

/-- `9xy0` SNE Vx, Vy (R87). -/
def execSneReg (x y : Reg) (s : State) : Result := .next (skipIf (s.reg x != s.reg y) s)

/-- `Bnnn` JP V0, nnn: the 16-bit sum, not masked to 12 bits (R83, decision D18). -/
def execJpV0 (nnn : Addr12) (s : State) : Result := .next (s.setPc (zext12 nnn + zext8 (s.reg .v0)))

end Sys2Proof.Machine
end

