-- ==== Sys2Proof/Machine/Display.lean ====
section
/-!
DEFINITION. The framebuffer's geometry, clear screen, and the sprite engine (spec/44_display.md R120 to R122).
-/
namespace Sys2Proof.Machine

/-- The bit index of a pixel, `px + 64 * py` (R120). -/
def pixelIndex (px py : Nat) : Nat := px + Config.dispW * py

/-- `fb_addr(px, py)`: the byte that holds a pixel (R120). -/
def fbAddr (px py : Nat) : Nat := Config.fbBase + pixelIndex px py / 8

/-- `fb_mask(px, py)`: a pixel's bit in its byte, the leftmost pixel in bit 7 (R120). -/
def fbMask (px py : Nat) : Byte := 0x80#8 >>> (pixelIndex px py % 8)

/-- `pixel(px, py)`: whether a pixel is on (R120). -/
def pixel (m : Memory) (px py : Nat) : Bool := m.read (fbAddr px py) &&& fbMask px py != 0#8

/-- Whether a computed position is on the screen (R122). -/
def onScreen (px py : Nat) : Bool := decide (px < Config.dispW) && decide (py < Config.dispH)

/-- Memory with the 256 bytes of the framebuffer at 0 (R121). Memory lists no byte 0, so this takes out every pair of the
region; that it is the spec's loop of 256 writes of 0 is the law `clearFramebuffer_eq_writeAll`. -/
def clearFramebuffer (m : Memory) : Memory :=
  m.filter (fun c => !(decide (Config.fbBase ≤ c.1) && decide (c.1 < Config.fbBase + Config.fbSize)))

/-- `00E0` CLS (R121). -/
def execCls (s : State) : Result := .next (s.setMem (clearFramebuffer s.mem))

/-- What a draw changes as it goes: memory, and whether a set pixel was cleared. -/
structure Canvas where
  mem : Memory
  collision : Bool
deriving DecidableEq, Repr

/-- One pixel toggled: the collision is detected on the byte as it is before the write; a position off the screen is
skipped entirely (R122). -/
def Canvas.toggle (c : Canvas) (px py : Nat) : Canvas :=
  if onScreen px py then
    { mem := c.mem.write (fbAddr px py) (c.mem.read (fbAddr px py) ^^^ fbMask px py)
      collision := c.collision || pixel c.mem px py }
  else c

/-- Bit `col` of a sprite byte, the most significant first: `(b >> (7 - col)) & 1` (R122). -/
def spriteBit (b : Byte) (col : Nat) : Bool := b.getLsbD (7 - col)

/-- The eight columns of a sprite row whose left pixel is (vx, py); positions are naturals and are not reduced (R122,
decision D13). -/
def Canvas.drawRow (c : Canvas) (vx py : Nat) (b : Byte) : Canvas :=
  (List.range 8).foldl (fun c col => if spriteBit b col then c.toggle (vx + col) py else c) c

/-- The rows of a sprite, one after the other: each row's byte is read when the row begins, clipped or not (R122,
decision D15). `addr` is the byte's address, `py` the row on the screen. -/
def Canvas.drawRows (vx : Nat) : Nat → Canvas → Nat → Nat → Except Trap Canvas
  | 0, c, _, _ => .ok c
  | n + 1, c, addr, py =>
    match memRead c.mem addr with
    | .ok b => Canvas.drawRows vx n (c.drawRow vx py b) (addr + 1) (py + 1)
    | .error t => .error t

/-- `Dxyn` DRW Vx, Vy, n: both coordinates read first, VF written last with 0 or 1, also when `n = 0` (R122, decision
D14). -/
def execDrw (x y : Reg) (n : Fin 16) (s : State) : Result :=
  settle s (match Canvas.drawRows (s.reg x).toNat n.val ⟨s.mem, false⟩ (s.effAddr 0) (s.reg y).toNat with
    | .ok c => .ok ((s.setMem c.mem).setV .vF (flagByte c.collision))
    | .error t => .error t)

end Sys2Proof.Machine
end

