-- ==== Sys2Proof/Machine/Index.lean ====
section
/-!
DEFINITION. The index register and the memory transfers (spec/43_index_and_memory.md R110 to R115). `I` is never
modified by a transfer.
-/
namespace Sys2Proof.Machine

/-- `Annn` LD I, nnn (R110). -/
def execLdI (nnn : Addr12) (s : State) : Result := .next (s.setI (zext12 nnn))

/-- `Fx1E` ADD I, Vx: modulo 65536, no flag, not masked to 12 bits (R111, spec/90_conflicts.md C1). -/
def execAddI (x : Reg) (s : State) : Result := .next (s.setI (s.I + zext8 (s.reg x)))

/-- The address of a glyph, `FONT_BASE + 5 * Vx`, for all 8 bits of Vx (R112, decision D17). -/
def glyphAddr (v : Byte) : Word := BitVec.ofNat 16 (Config.fontBase + Config.fontCharSize * v.toNat)

/-- `Fx29` LD F, Vx (R112). -/
def execLdFont (x : Reg) (s : State) : Result := .next (s.setI (glyphAddr (s.reg x)))

/-- The three decimal digits of a byte: hundreds, tens, ones (R113). -/
def bcdDigits (v : Byte) : List Byte :=
  [BitVec.ofNat 8 (v.toNat / 100), BitVec.ofNat 8 (v.toNat / 10 % 10), BitVec.ofNat 8 (v.toNat % 10)]

/-- Bytes stored at `I`, `I + 1` and on: the state with its new memory, or AddressOutOfRange. -/
def State.storeAtI (s : State) (bs : List Byte) : Except Trap State :=
  match storeBytes s.mem (s.effAddr 0) bs with
  | .ok m => .ok (s.setMem m)
  | .error t => .error t

/-- `Fx33` LD B, Vx: the digits at `I`, `I + 1`, `I + 2` (R113). -/
def execBcd (x : Reg) (s : State) : Result := settle s (s.storeAtI (bcdDigits (s.reg x)))

/-- `Fx55` LD [I], Vx: V0 to Vx stored from `I` on (R114). -/
def execStore (x : Reg) (s : State) : Result := settle s (s.storeAtI (s.regsUpTo x))

/-- `Fx65` LD Vx, [I]: V0 to Vx loaded from `I` on (R115). -/
def execLoad (x : Reg) (s : State) : Result :=
  settle s (match loadBytes s.mem (s.effAddr 0) (x.val + 1) with
    | .ok bs => .ok (s.setRegs bs)
    | .error t => .error t)

end Sys2Proof.Machine
end

