-- ==== Sys2Proof/Machine/TimersKeys.lean ====
section
/-!
DEFINITION. The timer and key instructions (spec/45_timers_and_keys.md R130 to R135).
-/
namespace Sys2Proof.Machine

/-- `Fx07` LD Vx, DT (R130). -/
def execLdFromDT (x : Reg) (s : State) : Result := .next (s.setV x s.DT)

/-- `Fx15` LD DT, Vx (R131). -/
def execLdDT (x : Reg) (s : State) : Result := .next (s.setDT (s.reg x))

/-- `Fx18` LD ST, Vx (R132). -/
def execLdST (x : Reg) (s : State) : Result := .next (s.setST (s.reg x))

/-- `Ex9E` SKP Vx: skip if the key is held; KeyIndexOutOfRange above 15 (R133, decision D16). -/
def execSkp (x : Reg) (s : State) : Result :=
  settle s (match s.keyHeld (s.reg x) with
    | .ok held => .ok (skipIf held s)
    | .error t => .error t)

/-- `ExA1` SKNP Vx: skip if the key is not held; KeyIndexOutOfRange above 15 (R134, decision D16). -/
def execSknp (x : Reg) (s : State) : Result :=
  settle s (match s.keyHeld (s.reg x) with
    | .ok held => .ok (skipIf (!held) s)
    | .error t => .error t)

/-- `Fx0A` LD Vx, K: with no key held `pc` goes back to this instruction and nothing else changes; else the lowest held
key goes to Vx (R135). -/
def execLdKey (x : Reg) (s : State) : Result :=
  .next (match s.lowestKey with
    | none => s.setPc (s.pc - 2#16)
    | some k => s.setV x (BitVec.ofNat 8 k.val))

end Sys2Proof.Machine
end

