-- ==== Sys2Proof/Machine/Step.lean ====
section
/-!
DEFINITION. The `step` transaction (spec/40_step_cycle.md R70, R75) and the placing of one instruction for it.
-/
namespace Sys2Proof.Machine

/-- One `step`: when the core is running, fetch, advance, decode and execute one instruction (R70); when it is halted or
faulted, nothing at all (R75). -/
def step (s : State) : Host.Outcome State Fault Refusal :=
  match s.status with
  | .running =>
    match fetchInstr s with
    | .ok i => exec i (advance s)
    | .error t => raise (advance s) t
  | .halted => .next s
  | .faulted => .next s

/-- `s` with a table word placed so that the very next step runs it (log 11, log 12). -/
def State.withFetchWord (s : State) (nbits w : Nat) : State := placeFetchWord s nbits w

end Sys2Proof.Machine
end

