-- ==== Sys2Proof/Machine/Transactions.lean ====
section
/-!
DEFINITION. The host interface (spec/46_host_transactions.md R140 to R149, spec/70_reset_and_hazards.md R170, R172): the
ten transactions, what each does to the core and what it returns, and a schedule of them.
-/
namespace Sys2Proof.Machine

/-- The transactions of R140. -/
inductive Transaction where
  /-- Power-on, or creation of the core (R170). -/
  | reset
  /-- `load_font(bytes)` (R141). -/
  | loadFont (bytes : List Byte)
  /-- `load_program(bytes)` (R142). -/
  | loadProgram (bytes : List Byte)
  /-- `host_write(addr, byte)` (R143). -/
  | hostWrite (addr : Nat) (b : Byte)
  /-- `host_read(addr)` (R143). -/
  | hostRead (addr : Nat)
  /-- `fb_read()` (R146). -/
  | fbRead
  /-- `status_read()` (R147). -/
  | statusRead
  /-- `set_keys(k)` (R144). -/
  | setKeys (k : Vector Bool 16)
  /-- `tick()` (R145). -/
  | tick
  /-- `step()` (R70). -/
  | step
deriving DecidableEq, Repr

/-- "decrementing toward zero and clamped at zero" (R145). -/
def countDown (t : Byte) : Byte := if t = 0#8 then t else t - 1#8

/-- `load_font`: the 80 bytes at 0x050, during initialisation (R141). -/
def loadFont (bytes : List Byte) (s : State) : Result :=
  if !s.initialising then .refused .notInitialising
  else if fontWellFormed bytes then .next (s.setMem (s.mem.writeAll Config.fontBase bytes))
  else .refused .fontLength

/-- `load_program`: the image at 0x200, during initialisation (R142). -/
def loadProgram (bytes : List Byte) (s : State) : Result :=
  if !s.initialising then .refused .notInitialising
  else if imageWellFormed bytes then .next (s.setMem (s.mem.writeAll Config.progBase bytes))
  else .refused .programLength

/-- `host_write`: one cell, during initialisation (R143, decision D22). -/
def hostWrite (addr : Nat) (b : Byte) (s : State) : Result :=
  if !s.initialising then .refused .notInitialising
  else if addressWellFormed addr then .next (s.setMem (s.mem.write addr b))
  else .refused .hostAddress

/-- `host_read`: no effect on the core (R143). -/
def hostRead (addr : Nat) (s : State) : Result :=
  if addressWellFormed addr then .next s else .refused .hostAddress

/-- `set_keys`: all sixteen replaced, nothing else, in RUNNING and HALTED; in FAULTED the effect is unspecified (R144,
R156, log 14). -/
def setKeys (k : Vector Bool 16) (s : State) : Result :=
  match s.status with
  | .faulted => .next s.unspecified
  | _ => .next (s.setKeys k)

/-- `tick`: both timers count down, in RUNNING and HALTED; in FAULTED the effect is unspecified (R145, R156, log 14). -/
def tick (s : State) : Result :=
  match s.status with
  | .faulted => .next s.unspecified
  | _ => .next ((s.setDT (countDown s.DT)).setST (countDown s.ST))

/-- What a transaction does to the core. -/
def transact (t : Transaction) (s : State) : Result :=
  match t with
  | .reset => .next s.resetFrom
  | .loadFont bytes => loadFont bytes s
  | .loadProgram bytes => loadProgram bytes s
  | .hostWrite addr b => hostWrite addr b s
  | .hostRead addr => hostRead addr s
  | .fbRead => .next s
  | .statusRead => .next s
  | .setKeys k => setKeys k s
  | .tick => tick s
  | .step => step s

/-- What a transaction returns to the host. -/
inductive Reply where
  | nothing
  /-- `host_read`: one byte. -/
  | byte (b : Byte)
  /-- `fb_read`: the 256 bytes of the framebuffer. -/
  | bytes (bs : List Byte)
  /-- `status_read`: the status, and when FAULTED the cause and the advisory information. -/
  | status (st : Status) (fault : Option (Cause × Advisory))
deriving DecidableEq, Repr

/-- The reply of a transaction issued in a state (R143, R146, R147); the others return nothing. A read outside the
address space has no reply, as `transact` refuses it. -/
def reply (t : Transaction) (s : State) : Reply :=
  match t with
  | .hostRead addr => if addressWellFormed addr then .byte (s.mem.read addr) else .nothing
  | .fbRead => .bytes (s.mem.readAll Config.fbBase Config.fbSize)
  | .statusRead => .status s.status (match s.status with
      | .faulted => some (s.cause, s.advisory)
      | _ => none)
  | _ => .nothing

/-- The transactions of a schedule, one after the other; a refused one ends it (R140). "A model quantifies over every
interleaving" (R149): a claim about every run is one about every list. -/
def runSchedule : List Transaction → State → Result
  | [], s => .next s
  | t :: ts, s =>
    match transact t s with
    | .next s' => runSchedule ts s'
    | .fault f => .fault f
    | .refused r => .refused r

/-- The numeric code of a cause (R150, decision D2). -/
def Cause.code : Cause → Nat
  | .decodeError => 1
  | .stackUnderflow => 2
  | .stackOverflow => 3
  | .addressOutOfRange => 4
  | .keyIndexOutOfRange => 5

end Sys2Proof.Machine
end

