-- ==== Sys2Proof/Safety.lean ====
section
/-!
DEFINITION. What counts as a safe run, in the terms the statements use: when a form raises a fault (spec/60_exceptions.md
R151), the invariant of spec/10_state.md R21, which pixels a sprite covers (spec/44_display.md R122), and two states that
differ only where no rule reads (R15, R18).
-/
namespace Sys2Proof.Machine

/-- A state no fault has been raised in: FAULTED is the bad terminal outcome (R155, R175). -/
def State.safe (s : State) : Prop := s.status ≠ .faulted

/-- A transaction or a meaning that takes a fault: it answers a next state, FAULTED, with the fault's cause and advisory
information (R150, R155). Nothing is said of any other element. -/
def faultsWith (r : Result) (t : Trap) : Prop :=
  ∃ u, r = .next u ∧ u.status = .faulted ∧ u.cause = t.cause ∧ u.advisory = t.info

/-- The fault an instruction raises in its execute phase, if any: R151, exhaustively. `s` is the state after the advance. -/
def trapIn (i : Instr) (s : State) : Option Trap :=
  match i with
  | .ret => if s.sp.val = 0 then some .underflow else none
  | .call _ => if s.sp.val = 16 then some .overflow else none
  | .drw _ _ n => if 0 < n.val ∧ 0xFFF < s.I.toNat + n.val - 1 then some (.outOfRange (max s.I.toNat 0x1000)) else none
  | .bcd _ => if 0xFFF < s.I.toNat + 2 then some (.outOfRange (max s.I.toNat 0x1000)) else none
  | .store x => if 0xFFF < s.I.toNat + x.val then some (.outOfRange (max s.I.toNat 0x1000)) else none
  | .load x => if 0xFFF < s.I.toNat + x.val then some (.outOfRange (max s.I.toNat 0x1000)) else none
  | .skp x => if 15 < (s.reg x).toNat then some (.keyIndex (s.reg x)) else none
  | .sknp x => if 15 < (s.reg x).toNat then some (.keyIndex (s.reg x)) else none
  | .halt | .cls | .jp _ | .seImm _ _ | .sneImm _ _ | .seReg _ _ | .ldImm _ _ | .addImm _ _ => none
  | .ldReg _ _ | .orReg _ _ | .andReg _ _ | .xorReg _ _ | .addReg _ _ | .sub _ _ | .shr _ _ | .subn _ _ | .shl _ _ => none
  | .sneReg _ _ | .ldI _ | .jpV0 _ | .rnd _ _ => none
  | .ldFromDT _ | .ldKey _ | .ldDT _ | .ldST _ | .addI _ | .ldFont _ => none

/-- What holds of every reachable state (R21), as an invariant every transaction keeps: memory in its canonical form;
while no fault has been raised, `pc` at most 0x10FE and every live stack entry at most 0x1000; and the core is running
for as long as initialisation lasts (R140). -/
structure State.Inv (s : State) : Prop where
  memory : s.mem.wf
  pcBound : s.status ≠ .faulted → s.pc.toNat ≤ 0x10FE
  stackBound : s.status ≠ .faulted → ∀ k : Fin 16, k.val < s.sp.val → (s.stack.get k).toNat ≤ 0x1000
  initRunning : s.initialising = true → s.status = .running

/-- Whether the sprite of `n` rows at `addr`, drawn with its left top corner at (vx, vy), has a 1 bit at a position: row
`qy - vy` is the byte at `addr + (qy - vy)`, and column 0 is its most significant bit (R122). -/
def spriteCovers (m : Memory) (addr vx vy n qx qy : Nat) : Bool :=
  decide (vy ≤ qy ∧ qy < vy + n ∧ vx ≤ qx ∧ qx < vx + 8) && (m.read (addr + (qy - vy))).getLsbD (7 - (qx - vx))

/-- Memory outside the framebuffer 0xF00 to 0xFFF is the same. -/
def sameOutsideFramebuffer (m k : Memory) : Prop := ∀ a, a < 0xF00 ∨ 0xFFF < a → k.read a = m.read a

/-- Two states that agree on everything a rule reads: all fields but the dead stack entries, those at `sp` and above
(R15), and, while no fault has been raised, `cause` and the advisory information (R18). -/
structure State.SameLive (s t : State) : Prop where
  V : t.V = s.V
  I : t.I = s.I
  pc : t.pc = s.pc
  sp : t.sp = s.sp
  liveStack : ∀ k : Fin 16, k.val < s.sp.val → t.stack.get k = s.stack.get k
  DT : t.DT = s.DT
  ST : t.ST = s.ST
  keys : t.keys = s.keys
  status : t.status = s.status
  mem : t.mem = s.mem
  initialising : t.initialising = s.initialising
  freeIndex : t.freeIndex = s.freeIndex
  fault : s.status = .faulted → t.cause = s.cause ∧ t.advisory = s.advisory

end Sys2Proof.Machine
end

