-- ==== Sys2Proof/Certificates/Slice0/Obligations.lean ====
section
/-!
DEFINITION. The statements for the provers. Each docstring names the rule of spec/ it formalises, or the spec's own
decision or the log entry it rests on. `s` is the state a meaning begins in, after the advance of R70, so `s.pc` is the
address of the instruction plus 2. "`t = { s with V := t.V }`" reads: every field but `V` is as in `s`.
-/

open Sys2Proof Sys2Proof.Machine

/-! ## Encoding (spec/30_encoding.md) -/

/-- Decoding the encoding of an instruction gives it back, with every operand at every value its field admits, as a word
and as the first two bytes of any byte string (R50, R52, R54). -/
def Obligations.DecodeOfEncodeGivesTheInstruction : Prop :=
  ∀ (i : Instr) (rest : List Byte), decode (encode i) = .ok i ∧ decodeBytes (encodeBytes i ++ rest) = .ok (i, rest)

/-- Each legal word has one meaning and no bit of it is dropped: encoding what it decodes to gives the word back, the
ignored `y` of `8xy6` and `8xyE` included (R54, R55). -/
def Obligations.EncodeOfDecodeGivesTheWord : Prop :=
  ∀ (w : Word) (i : Instr), decode w = .ok i → encode i = w

/-- A word decodes to the form whose row it matches (`w & mask = match`), no other row of the table matches it, and a word
that is illegal matches no row (R54). Rests on decisions D9 and D10. -/
def Obligations.WordDecodesToTheOneRowItMatches : Prop :=
  ∀ w : Word,
    (∀ i, decode w = .ok i →
      i.row ∈ opcodeTable ∧ w &&& i.row.mask = i.row.value ∧ ∀ r ∈ opcodeTable, w &&& r.mask = r.value → r = i.row) ∧
    (∀ e, decode w = .error e → ∀ r ∈ opcodeTable, w &&& r.mask ≠ r.value)

/-- The illegal words are exactly the six classes of R56. Rests on decision D9 for mode 0. -/
def Obligations.IllegalWordsAreTheSixClasses : Prop :=
  ∀ w : Word, (∃ e, decode w = .error e) ↔
    (w.toNat / 4096 = 0x0 ∧ w.toNat ≠ 0x0000 ∧ w.toNat ≠ 0x00E0 ∧ w.toNat ≠ 0x00EE) ∨
    (w.toNat / 4096 = 0x5 ∧ w.toNat % 16 ≠ 0) ∨
    (w.toNat / 4096 = 0x9 ∧ w.toNat % 16 ≠ 0) ∨
    (w.toNat / 4096 = 0x8 ∧ w.toNat % 16 ∈ [0x8, 0x9, 0xA, 0xB, 0xC, 0xD, 0xF]) ∨
    (w.toNat / 4096 = 0xE ∧ w.toNat % 256 ∉ [0x9E, 0xA1]) ∨
    (w.toNat / 4096 = 0xF ∧ w.toNat % 256 ∉ [0x07, 0x0A, 0x15, 0x18, 0x1E, 0x29, 0x33, 0x55, 0x65])

/-- Words written out from the table of R54 decode to the instructions they stand for. A sanity statement. The
digit 7 of `8127` is decision D10 (log 27). -/
def Obligations.WordsOfTheTableDecodeToTheirInstructions : Prop :=
  decode 0x0000 = .ok .halt ∧ decode 0x00E0 = .ok .cls ∧ decode 0x00EE = .ok .ret ∧ decode 0x2ABC = .ok (.call 0xABC) ∧
  decode 0x3A05 = .ok (.seImm 0xA 0x05) ∧ decode 0x9120 = .ok (.sneReg 1 2) ∧ decode 0x6A2B = .ok (.ldImm 0xA 0x2B) ∧
  decode 0x8127 = .ok (.subn 1 2) ∧ decode 0xA20A = .ok (.ldI 0x20A) ∧ decode 0xD125 = .ok (.drw 1 2 5) ∧
  decode 0xE1A1 = .ok (.sknp 1) ∧ decode 0xF30A = .ok (.ldKey 3) ∧ decode 0xF265 = .ok (.load 2)

/-! ## The cycle (spec/40_step_cycle.md) -/

/-- R70 whole. A core that is not running does nothing. A running one fetches the big-endian word at `pc`, taking
AddressOutOfRange when `pc > 0xFFE`; a word that is illegal takes DecodeError; else `step` is `exec` of the decoded
instruction in the state whose `pc` is advanced by 2. (`initialising`, which the first step ends, is R140's, log 9; the
advisory information is R150's, log 7.) -/
def Obligations.StepFetchesAdvancesDecodesAndExecutes : Prop :=
  ∀ s : State,
    (s.status ≠ .running → step s = .next s) ∧
    (s.status = .running → 0xFFE < s.pc.toNat →
      faultsWith (step s) ⟨.addressOutOfRange, .address (max s.pc.toNat 0x1000)⟩) ∧
    (s.status = .running → s.pc.toNat ≤ 0xFFE →
      ∀ w : Word, w.toNat = (s.mem.read s.pc.toNat).toNat * 256 + (s.mem.read (s.pc.toNat + 1)).toNat →
        (∀ e, decode w = .error e → faultsWith (step s) ⟨.decodeError, .fetched w s.pc⟩) ∧
        (∀ i, decode w = .ok i → step s = exec i { s with pc := s.pc + 2, initialising := false }))

/-- `0000` HALT: R74. -/
def Obligations.HaltSetsTheStatusAndNothingElse : Prop :=
  decode 0x0000 = .ok .halt ∧ ∀ s : State, exec .halt s = .next { s with status := .halted }

/-! ## Control transfer (spec/41_control_flow.md) -/

/-- `00EE` RET: R80. The entry left above the new `sp` is dead, so nothing is said of it. -/
def Obligations.RetPopsTheNewestReturnAddress : Prop :=
  decode 0x00EE = .ok .ret ∧ ∀ s : State,
    (s.sp.val = 0 → faultsWith (exec .ret s) ⟨.stackUnderflow, .nothing⟩) ∧
    (∀ k : Fin 16, s.sp.val = k.val + 1 →
      ∃ t, exec .ret s = .next t ∧ t.pc = s.stack.get k ∧ t.sp.val = k.val ∧
        (∀ j : Fin 16, j < k → t.stack.get j = s.stack.get j) ∧
        t = { s with pc := t.pc, sp := t.sp, stack := t.stack })

/-- `1nnn` JP nnn: R81. -/
def Obligations.JumpSetsPcToTheImmediate : Prop :=
  ∀ (nnn : Addr12) (s : State),
    decode (BitVec.ofNat 16 (0x1000 + nnn.toNat)) = .ok (.jp nnn) ∧
    ∃ t, exec (.jp nnn) s = .next t ∧ t.pc.toNat = nnn.toNat ∧ t = { s with pc := t.pc }

/-- `2nnn` CALL nnn: R82. The capacity of 16 is the spec's decision D6 (log 13). -/
def Obligations.CallPushesTheAdvancedPcAndJumps : Prop :=
  ∀ (nnn : Addr12) (s : State),
    decode (BitVec.ofNat 16 (0x2000 + nnn.toNat)) = .ok (.call nnn) ∧
    (s.sp.val = 16 → faultsWith (exec (.call nnn) s) ⟨.stackOverflow, .nothing⟩) ∧
    (∀ k : Fin 16, s.sp.val = k.val →
      ∃ t, exec (.call nnn) s = .next t ∧ t.pc.toNat = nnn.toNat ∧ t.sp.val = k.val + 1 ∧ t.stack.get k = s.pc ∧
        (∀ j : Fin 16, j < k → t.stack.get j = s.stack.get j) ∧
        t = { s with pc := t.pc, sp := t.sp, stack := t.stack })

/-- "`2nnn` then `00EE` restores the program counter to the instruction immediately after the original call" (quoted in
R80), whatever the subroutine did, as long as it left the live stack entries as they were. -/
def Obligations.CallThenRetReturnsAfterTheCall : Prop :=
  ∀ (nnn : Addr12) (s t u : State), s.sp.val < 16 → exec (.call nnn) s = .next t →
    u.sp = t.sp → (∀ k : Fin 16, k.val < t.sp.val → u.stack.get k = t.stack.get k) →
    ∃ v, exec .ret u = .next v ∧ v.pc = s.pc ∧ v.sp = s.sp

/-- `Bnnn` JP V0, nnn: the sum is exact, at most 0x10FE, and not masked to 12 bits. Rests on decision D18. -/
def Obligations.IndexedJumpAddsV0 : Prop :=
  ∀ (nnn : Addr12) (s : State),
    decode (BitVec.ofNat 16 (0xB000 + nnn.toNat)) = .ok (.jpV0 nnn) ∧
    ∃ t, exec (.jpV0 nnn) s = .next t ∧ t.pc.toNat = nnn.toNat + (s.reg 0).toNat ∧ t = { s with pc := t.pc }

/-- `3xnn` and `4xnn`: R84, R85. -/
def Obligations.SkipsOnAnImmediate : Prop :=
  ∀ (x : Reg) (nn : Byte) (s : State),
    decode (BitVec.ofNat 16 (0x3000 + 0x100 * x.val + nn.toNat)) = .ok (.seImm x nn) ∧
    decode (BitVec.ofNat 16 (0x4000 + 0x100 * x.val + nn.toNat)) = .ok (.sneImm x nn) ∧
    exec (.seImm x nn) s = .next (if s.reg x = nn then { s with pc := s.pc + 2 } else s) ∧
    exec (.sneImm x nn) s = .next (if s.reg x ≠ nn then { s with pc := s.pc + 2 } else s)

/-- `5xy0` and `9xy0`: R86, R87. A nonzero trailing nibble is a decode error. -/
def Obligations.SkipsOnTwoRegisters : Prop :=
  ∀ (x y : Reg) (s : State),
    decode (BitVec.ofNat 16 (0x5000 + 0x100 * x.val + 0x10 * y.val)) = .ok (.seReg x y) ∧
    decode (BitVec.ofNat 16 (0x9000 + 0x100 * x.val + 0x10 * y.val)) = .ok (.sneReg x y) ∧
    (∀ n : Fin 16, n ≠ 0 → (∃ e, decode (BitVec.ofNat 16 (0x5000 + 0x100 * x.val + 0x10 * y.val + n.val)) = .error e) ∧
      (∃ e, decode (BitVec.ofNat 16 (0x9000 + 0x100 * x.val + 0x10 * y.val + n.val)) = .error e)) ∧
    exec (.seReg x y) s = .next (if s.reg x = s.reg y then { s with pc := s.pc + 2 } else s) ∧
    exec (.sneReg x y) s = .next (if s.reg x ≠ s.reg y then { s with pc := s.pc + 2 } else s)

/-! ## Registers and arithmetic (spec/42_load_and_alu.md) -/

/-- `6xnn` LD Vx, nn and `7xnn` ADD Vx, nn: R90, R91. VF changes only as the destination. -/
def Obligations.LoadAndAddImmediate : Prop :=
  ∀ (x : Reg) (nn : Byte) (s : State),
    decode (BitVec.ofNat 16 (0x6000 + 0x100 * x.val + nn.toNat)) = .ok (.ldImm x nn) ∧
    decode (BitVec.ofNat 16 (0x7000 + 0x100 * x.val + nn.toNat)) = .ok (.addImm x nn) ∧
    (∃ t, exec (.ldImm x nn) s = .next t ∧ t.reg x = nn ∧ (∀ r, r ≠ x → t.reg r = s.reg r) ∧ t = { s with V := t.V }) ∧
    (∃ t, exec (.addImm x nn) s = .next t ∧ (t.reg x).toNat = ((s.reg x).toNat + nn.toNat) % 256 ∧
      (∀ r, r ≠ x → t.reg r = s.reg r) ∧ t = { s with V := t.V })

/-- `8xy0` to `8xy3`: copy, OR, AND, XOR, bit by bit; VF changes only as the destination. Rests on decisions D10 (the
sub-opcode digits) and D11 (VF untouched). -/
def Obligations.CopyAndLogicLeaveVFAlone : Prop :=
  ∀ (x y : Reg) (s : State),
    decode (BitVec.ofNat 16 (0x8000 + 0x100 * x.val + 0x10 * y.val)) = .ok (.ldReg x y) ∧
    decode (BitVec.ofNat 16 (0x8001 + 0x100 * x.val + 0x10 * y.val)) = .ok (.orReg x y) ∧
    decode (BitVec.ofNat 16 (0x8002 + 0x100 * x.val + 0x10 * y.val)) = .ok (.andReg x y) ∧
    decode (BitVec.ofNat 16 (0x8003 + 0x100 * x.val + 0x10 * y.val)) = .ok (.xorReg x y) ∧
    (∃ t, exec (.ldReg x y) s = .next t ∧ t.reg x = s.reg y ∧ (∀ r, r ≠ x → t.reg r = s.reg r) ∧ t = { s with V := t.V }) ∧
    (∃ t, exec (.orReg x y) s = .next t ∧
      (∀ k < 8, (t.reg x).getLsbD k = ((s.reg x).getLsbD k || (s.reg y).getLsbD k)) ∧
      (∀ r, r ≠ x → t.reg r = s.reg r) ∧ t = { s with V := t.V }) ∧
    (∃ t, exec (.andReg x y) s = .next t ∧
      (∀ k < 8, (t.reg x).getLsbD k = ((s.reg x).getLsbD k && (s.reg y).getLsbD k)) ∧
      (∀ r, r ≠ x → t.reg r = s.reg r) ∧ t = { s with V := t.V }) ∧
    (∃ t, exec (.xorReg x y) s = .next t ∧
      (∀ k < 8, (t.reg x).getLsbD k = ((s.reg x).getLsbD k ^^ (s.reg y).getLsbD k)) ∧
      (∀ r, r ≠ x → t.reg r = s.reg r) ∧ t = { s with V := t.V })

/-- `8xy4` ADD and `8xy5` SUB: R96, R97. VF ends holding the flag, also when it is the destination. -/
def Obligations.AddAndSubtractWriteTheFlagLast : Prop :=
  ∀ (x y : Reg) (s : State),
    decode (BitVec.ofNat 16 (0x8004 + 0x100 * x.val + 0x10 * y.val)) = .ok (.addReg x y) ∧
    decode (BitVec.ofNat 16 (0x8005 + 0x100 * x.val + 0x10 * y.val)) = .ok (.sub x y) ∧
    (∃ t, exec (.addReg x y) s = .next t ∧
      (t.reg 15).toNat = (if (s.reg x).toNat + (s.reg y).toNat > 255 then 1 else 0) ∧
      (x ≠ 15 → (t.reg x).toNat = ((s.reg x).toNat + (s.reg y).toNat) % 256) ∧
      (∀ r, r ≠ x → r ≠ 15 → t.reg r = s.reg r) ∧ t = { s with V := t.V }) ∧
    (∃ t, exec (.sub x y) s = .next t ∧
      (t.reg 15).toNat = (if (s.reg x).toNat ≥ (s.reg y).toNat then 1 else 0) ∧
      (x ≠ 15 → (t.reg x).toNat = ((s.reg x).toNat + 256 - (s.reg y).toNat) % 256) ∧
      (∀ r, r ≠ x → r ≠ 15 → t.reg r = s.reg r) ∧ t = { s with V := t.V })

/-- `8xyE` SHL: R100. Any `y` decodes and none is read. -/
def Obligations.ShiftLeftMovesBitSevenToVF : Prop :=
  ∀ (x y : Reg) (s : State),
    decode (BitVec.ofNat 16 (0x800E + 0x100 * x.val + 0x10 * y.val)) = .ok (.shl x y) ∧
    ∃ t, exec (.shl x y) s = .next t ∧
      (t.reg 15).toNat = (s.reg x).toNat / 128 ∧
      (x ≠ 15 → (t.reg x).toNat = (2 * (s.reg x).toNat) % 256) ∧
      (∀ r, r ≠ x → r ≠ 15 → t.reg r = s.reg r) ∧ t = { s with V := t.V }

/-- `8xy6` SHR and `8xy7` SUBN (R98, R99). Rests on decisions D12 (the shift is of Vx in place) and D10 (the digit 7). -/
def Obligations.ShiftRightAndReverseSubtract : Prop :=
  ∀ (x y : Reg) (s : State),
    decode (BitVec.ofNat 16 (0x8006 + 0x100 * x.val + 0x10 * y.val)) = .ok (.shr x y) ∧
    decode (BitVec.ofNat 16 (0x8007 + 0x100 * x.val + 0x10 * y.val)) = .ok (.subn x y) ∧
    (∃ t, exec (.shr x y) s = .next t ∧
      (t.reg 15).toNat = (s.reg x).toNat % 2 ∧
      (x ≠ 15 → (t.reg x).toNat = (s.reg x).toNat / 2) ∧
      (∀ r, r ≠ x → r ≠ 15 → t.reg r = s.reg r) ∧ t = { s with V := t.V }) ∧
    (∃ t, exec (.subn x y) s = .next t ∧
      (t.reg 15).toNat = (if (s.reg y).toNat ≥ (s.reg x).toNat then 1 else 0) ∧
      (x ≠ 15 → (t.reg x).toNat = ((s.reg y).toNat + 256 - (s.reg x).toNat) % 256) ∧
      (∀ r, r ≠ x → r ≠ 15 → t.reg r = s.reg r) ∧ t = { s with V := t.V })

/-- `Cxnn` RND: some byte masked by `nn`, so every bit clear in `nn` is clear in Vx. Rests on decision D25; `freeIndex` is
the model's own counter of free values (logs 3, 4), and nothing is said of the byte. -/
def Obligations.RandomIsMaskedByTheImmediate : Prop :=
  ∀ (x : Reg) (nn : Byte) (s : State),
    decode (BitVec.ofNat 16 (0xC000 + 0x100 * x.val + nn.toNat)) = .ok (.rnd x nn) ∧
    ∃ (r : Byte) (t : State), exec (.rnd x nn) s = .next t ∧ t.reg x = r &&& nn ∧
      (∀ k < 8, nn.getLsbD k = false → (t.reg x).getLsbD k = false) ∧
      (∀ q, q ≠ x → t.reg q = s.reg q) ∧ t = { s with V := t.V, freeIndex := t.freeIndex }

/-! ## Index register and memory (spec/43_index_and_memory.md, spec/20_memory.md) -/

/-- `Annn` LD I, nnn: R110. -/
def Obligations.LoadIndexImmediate : Prop :=
  ∀ (nnn : Addr12) (s : State),
    decode (BitVec.ofNat 16 (0xA000 + nnn.toNat)) = .ok (.ldI nnn) ∧
    ∃ t, exec (.ldI nnn) s = .next t ∧ t.I.toNat = nnn.toNat ∧ t = { s with I := t.I }

/-- `Fx1E` ADD I, Vx wraps modulo 65536 with no flag; `Fx29` LD F, Vx applies the font formula to all 8 bits. Rests on
decisions D4 (`I` is not masked) and D17 (Vx is not masked). -/
def Obligations.AddToIndexAndFontAddress : Prop :=
  ∀ (x : Reg) (s : State),
    decode (BitVec.ofNat 16 (0xF01E + 0x100 * x.val)) = .ok (.addI x) ∧
    decode (BitVec.ofNat 16 (0xF029 + 0x100 * x.val)) = .ok (.ldFont x) ∧
    (∃ t, exec (.addI x) s = .next t ∧ t.I.toNat = (s.I.toNat + (s.reg x).toNat) % 65536 ∧ t = { s with I := t.I }) ∧
    (∃ t, exec (.ldFont x) s = .next t ∧ t.I.toNat = 0x050 + 5 * (s.reg x).toNat ∧ t = { s with I := t.I })

/-- `Fx33` LD B, Vx: R113. -/
def Obligations.BcdStoresThreeDigits : Prop :=
  ∀ (x : Reg) (s : State),
    decode (BitVec.ofNat 16 (0xF033 + 0x100 * x.val)) = .ok (.bcd x) ∧
    (s.I.toNat ≤ 0xFFD →
      ∃ t, exec (.bcd x) s = .next t ∧
        (t.mem.read s.I.toNat).toNat = (s.reg x).toNat / 100 ∧
        (t.mem.read (s.I.toNat + 1)).toNat = (s.reg x).toNat / 10 % 10 ∧
        (t.mem.read (s.I.toNat + 2)).toNat = (s.reg x).toNat % 10 ∧
        (∀ a, a < s.I.toNat ∨ s.I.toNat + 2 < a → t.mem.read a = s.mem.read a) ∧
        t = { s with mem := t.mem }) ∧
    (0xFFD < s.I.toNat → faultsWith (exec (.bcd x) s) ⟨.addressOutOfRange, .address (max s.I.toNat 0x1000)⟩)

/-- `Fx55` LD [I], Vx: R114. -/
def Obligations.StoreWritesV0ToVx : Prop :=
  ∀ (x : Reg) (s : State),
    decode (BitVec.ofNat 16 (0xF055 + 0x100 * x.val)) = .ok (.store x) ∧
    (s.I.toNat + x.val ≤ 0xFFF →
      ∃ t, exec (.store x) s = .next t ∧
        (∀ k : Reg, k ≤ x → t.mem.read (s.I.toNat + k.val) = s.reg k) ∧
        (∀ a, a < s.I.toNat ∨ s.I.toNat + x.val < a → t.mem.read a = s.mem.read a) ∧
        t = { s with mem := t.mem }) ∧
    (0xFFF < s.I.toNat + x.val → faultsWith (exec (.store x) s) ⟨.addressOutOfRange, .address (max s.I.toNat 0x1000)⟩)

/-- `Fx65` LD Vx, [I]: R115. -/
def Obligations.LoadReadsV0ToVx : Prop :=
  ∀ (x : Reg) (s : State),
    decode (BitVec.ofNat 16 (0xF065 + 0x100 * x.val)) = .ok (.load x) ∧
    (s.I.toNat + x.val ≤ 0xFFF →
      ∃ t, exec (.load x) s = .next t ∧
        (∀ k : Reg, k ≤ x → t.reg k = s.mem.read (s.I.toNat + k.val)) ∧
        (∀ k : Reg, x < k → t.reg k = s.reg k) ∧
        t = { s with V := t.V }) ∧
    (0xFFF < s.I.toNat + x.val → faultsWith (exec (.load x) s) ⟨.addressOutOfRange, .address (max s.I.toNat 0x1000)⟩)

/-- "`Fx55`/`Fx65` round-trip" (quoted in R115): registers stored and later loaded from the same bytes come back, and the
registers beyond Vx are left untouched by either direction. -/
def Obligations.StoreThenLoadRestoresTheRegisters : Prop :=
  ∀ (x : Reg) (s t u : State), s.I.toNat + x.val ≤ 0xFFF → exec (.store x) s = .next t →
    u.I = s.I → (∀ k : Reg, k ≤ x → u.mem.read (s.I.toNat + k.val) = t.mem.read (s.I.toNat + k.val)) →
    t.V = s.V ∧ ∃ v, exec (.load x) u = .next v ∧ (∀ k : Reg, k ≤ x → v.reg k = s.reg k) ∧ (∀ k : Reg, x < k → v.reg k = u.reg k)

/-- Self-modifying code (R43, derived there): what an `Fx55` of two registers or more stores at `pc` is the word the very
next step fetches and, being legal, runs (`initialising`: log 9). -/
def Obligations.StoredWordIsTheNextInstruction : Prop :=
  ∀ (x : Reg) (s t : State) (i : Instr), 1 ≤ x.val → s.status = .running → s.I = s.pc → s.I.toNat + x.val ≤ 0xFFF →
    exec (.store x) s = .next t → decode (Word.ofBytes (s.reg 0) (s.reg 1)) = .ok i →
    step t = exec i { t with pc := t.pc + 2, initialising := false }

/-- Byte access: R33. A read gives the byte and has no side effect; a write changes that one cell; both only after the
bounds check. The model's canonical form is kept (log 10). -/
def Obligations.ByteAccessIsCheckedAndExact : Prop :=
  ∀ (m : Memory) (a : Nat) (v : Byte),
    (a ≤ 0xFFF → memRead m a = .ok (m.read a) ∧
      ∃ k, memWrite m a v = .ok k ∧ k.read a = v ∧ (∀ b, b ≠ a → k.read b = m.read b) ∧ (m.wf → k.wf)) ∧
    (0xFFF < a → memRead m a = .error ⟨.addressOutOfRange, .address a⟩ ∧
      memWrite m a v = .error ⟨.addressOutOfRange, .address a⟩)

/-- 16-bit access is big-endian: the most significant byte at the lower address, for reads and for writes (R34, R35). -/
def Obligations.WordAccessIsBigEndian : Prop :=
  ∀ (m : Memory) (a : Nat) (v : Word),
    (a ≤ 0xFFE →
      (∃ w, memRead16 m a = .ok w ∧ w.toNat = (m.read a).toNat * 256 + (m.read (a + 1)).toNat) ∧
      ∃ k, memWrite16 m a v = .ok k ∧ (k.read a).toNat = v.toNat / 256 ∧ (k.read (a + 1)).toNat = v.toNat % 256 ∧
        (∀ b, b ≠ a → b ≠ a + 1 → k.read b = m.read b) ∧ memRead16 k a = .ok v) ∧
    (0xFFE < a → memRead16 m a = .error ⟨.addressOutOfRange, .address (max a 0x1000)⟩ ∧
      memWrite16 m a v = .error ⟨.addressOutOfRange, .address (max a 0x1000)⟩)

/-! ## Display (spec/44_display.md) -/

/-- The framebuffer's layout: R120. A pixel is one bit of one byte of 0xF00 to 0xFFF, the leftmost of eight in bit 7, and
no two pixels share a bit. -/
def Obligations.PixelsAreTheBitsOfTheFramebuffer : Prop :=
  ∀ (m : Memory) (px py : Nat), px ≤ 63 → py ≤ 31 →
    fbAddr px py = 0xF00 + 8 * py + px / 8 ∧ fbAddr px py = 0xF00 + (px + 64 * py) / 8 ∧
    (fbMask px py).toNat = 0x80 / 2 ^ ((px + 64 * py) % 8) ∧
    0xF00 ≤ fbAddr px py ∧ fbAddr px py ≤ 0xFFF ∧
    pixel m px py = (m.read (0xF00 + 8 * py + px / 8)).getLsbD (7 - px % 8) ∧
    ∀ qx qy, qx ≤ 63 → qy ≤ 31 → fbAddr qx qy = fbAddr px py → fbMask qx qy = fbMask px py → qx = px ∧ qy = py

/-- `00E0` CLS: R121. -/
def Obligations.ClearScreenZeroesTheFramebufferOnly : Prop :=
  decode 0x00E0 = .ok .cls ∧ ∀ s : State,
    ∃ t, exec .cls s = .next t ∧ (∀ a, 0xF00 ≤ a → a ≤ 0xFFF → t.mem.read a = 0) ∧
      (∀ a, a < 0xF00 ∨ 0xFFF < a → t.mem.read a = s.mem.read a) ∧
      (∀ px py, px ≤ 63 → py ≤ 31 → pixel t.mem px py = false) ∧ t = { s with mem := t.mem }

/-- `Dxyn` DRW whose sprite lies outside the framebuffer, the usual case: each pixel on the screen is flipped exactly when
the sprite has a 1 bit at `(px - Vx, py - Vy)`, with `Vx` and `Vy` not reduced; VF is 1 exactly when a pixel that was on is
flipped, else 0; nothing else changes. Rests on decisions D13, D14 and D15. -/
def Obligations.DrawFlipsThePixelsTheSpriteCovers : Prop :=
  ∀ (x y : Reg) (n : Fin 16) (s : State), s.I.toNat + n.val ≤ 0xF00 →
    decode (BitVec.ofNat 16 (0xD000 + 0x100 * x.val + 0x10 * y.val + n.val)) = .ok (.drw x y n) ∧
    ∃ t, exec (.drw x y n) s = .next t ∧
      (∀ px py, px ≤ 63 → py ≤ 31 → pixel t.mem px py =
        (pixel s.mem px py ^^ spriteCovers s.mem s.I.toNat (s.reg x).toNat (s.reg y).toNat n.val px py)) ∧
      ((t.reg 15 = 1 ∧ ∃ px py, px ≤ 63 ∧ py ≤ 31 ∧ pixel s.mem px py = true ∧
          spriteCovers s.mem s.I.toNat (s.reg x).toNat (s.reg y).toNat n.val px py = true) ∨
        (t.reg 15 = 0 ∧ ∀ px py, px ≤ 63 → py ≤ 31 → pixel s.mem px py = true →
          spriteCovers s.mem s.I.toNat (s.reg x).toNat (s.reg y).toNat n.val px py = false)) ∧
      sameOutsideFramebuffer s.mem t.mem ∧
      (∀ r, r ≠ 15 → t.reg r = s.reg r) ∧ t = { s with V := t.V, mem := t.mem }

/-- `Dxyn` DRW wherever its sprite lies, the framebuffer included, by rows: no row leaves memory as it is and gives VF 0;
one row more draws, after the rows before it, the byte as those rows left it at `I + n` on the row `Vy + n`. With the
last clause, which says when a draw raises, every form is covered. Rests on decisions D13, D14 and D15. -/
def Obligations.DrawGoesRowByRow : Prop :=
  ∀ (x y : Reg) (s : State),
    (∃ t, exec (.drw x y 0) s = .next t ∧ t.reg 15 = 0 ∧ (∀ r, r ≠ 15 → t.reg r = s.reg r) ∧ t = { s with V := t.V }) ∧
    (∀ n m : Fin 16, m.val = n.val + 1 → s.I.toNat + n.val ≤ 0xFFF →
      ∃ t u, exec (.drw x y n) s = .next t ∧ exec (.drw x y m) s = .next u ∧
        (∀ px py, px ≤ 63 → py ≤ 31 → pixel u.mem px py =
          (pixel t.mem px py ^^ spriteCovers t.mem (s.I.toNat + n.val) (s.reg x).toNat ((s.reg y).toNat + n.val) 1 px py)) ∧
        ((u.reg 15 = 1 ∧ (t.reg 15 = 1 ∨ ∃ px py, px ≤ 63 ∧ py ≤ 31 ∧ pixel t.mem px py = true ∧
            spriteCovers t.mem (s.I.toNat + n.val) (s.reg x).toNat ((s.reg y).toNat + n.val) 1 px py = true)) ∨
          (u.reg 15 = 0 ∧ t.reg 15 = 0 ∧ ∀ px py, px ≤ 63 → py ≤ 31 → pixel t.mem px py = true →
            spriteCovers t.mem (s.I.toNat + n.val) (s.reg x).toNat ((s.reg y).toNat + n.val) 1 px py = false)) ∧
        sameOutsideFramebuffer s.mem u.mem ∧
        (∀ r, r ≠ 15 → u.reg r = s.reg r) ∧ u = { s with V := u.V, mem := u.mem }) ∧
    (∀ n : Fin 16, 0 < n.val → 0xFFF < s.I.toNat + n.val - 1 →
      faultsWith (exec (.drw x y n) s) ⟨.addressOutOfRange, .address (max s.I.toNat 0x1000)⟩)

/-- The XOR law (§8 of the document, quoted in R122): the identical sprite drawn twice at the identical position restores
memory, for a sprite outside the framebuffer; and VF after the second draw is 1 exactly when the sprite has a 1 bit on a
pixel of the screen that was off before the first, which set it (log 26 says why this is not R122's shorter wording). VF
is not one of the two coordinates here, since the first draw writes it: that case is the row-by-row statement's. Rests on
decisions D13, D14 and D15. -/
def Obligations.DrawingTwiceRestoresMemory : Prop :=
  ∀ (x y : Reg) (n : Fin 16) (s t : State), x ≠ 15 → y ≠ 15 → s.mem.wf → s.I.toNat + n.val ≤ 0xF00 →
    exec (.drw x y n) s = .next t →
    ∃ u, exec (.drw x y n) t = .next u ∧ u.mem = s.mem ∧
      (u.reg 15 = 1 ↔ ∃ px py, px ≤ 63 ∧ py ≤ 31 ∧ pixel s.mem px py = false ∧
        spriteCovers s.mem s.I.toNat (s.reg x).toNat (s.reg y).toNat n.val px py = true) ∧
      u = { s with V := u.V, mem := u.mem } ∧ ∀ r, r ≠ 15 → u.reg r = s.reg r

/-! ## Timers and keys (spec/45_timers_and_keys.md) -/

/-- `Fx07`, `Fx15`, `Fx18`: R130, R131, R132. -/
def Obligations.TimerInstructionsMoveOneByte : Prop :=
  ∀ (x : Reg) (s : State),
    decode (BitVec.ofNat 16 (0xF007 + 0x100 * x.val)) = .ok (.ldFromDT x) ∧
    decode (BitVec.ofNat 16 (0xF015 + 0x100 * x.val)) = .ok (.ldDT x) ∧
    decode (BitVec.ofNat 16 (0xF018 + 0x100 * x.val)) = .ok (.ldST x) ∧
    (∃ t, exec (.ldFromDT x) s = .next t ∧ t.reg x = s.DT ∧ (∀ r, r ≠ x → t.reg r = s.reg r) ∧ t = { s with V := t.V }) ∧
    exec (.ldDT x) s = .next { s with DT := s.reg x } ∧
    exec (.ldST x) s = .next { s with ST := s.reg x }

/-- `Ex9E` and `ExA1`: the level test of the key Vx names, and the fault above 15. Rests on decision D16. -/
def Obligations.KeySkipsTestTheNamedKey : Prop :=
  ∀ (x : Reg) (s : State),
    decode (BitVec.ofNat 16 (0xE09E + 0x100 * x.val)) = .ok (.skp x) ∧
    decode (BitVec.ofNat 16 (0xE0A1 + 0x100 * x.val)) = .ok (.sknp x) ∧
    (∀ k : Fin 16, (s.reg x).toNat = k.val →
      exec (.skp x) s = .next (if s.keys.get k = true then { s with pc := s.pc + 2 } else s) ∧
      exec (.sknp x) s = .next (if s.keys.get k = true then s else { s with pc := s.pc + 2 })) ∧
    (15 < (s.reg x).toNat →
      faultsWith (exec (.skp x) s) ⟨.keyIndexOutOfRange, .key (s.reg x)⟩ ∧
      faultsWith (exec (.sknp x) s) ⟨.keyIndexOutOfRange, .key (s.reg x)⟩)

/-- `Fx0A` LD Vx, K: R135. With no key held it goes back to its own address and changes nothing else, so a waiting step of
a running core leaves the state as it found it (but for `initialising`, which the first step ends, log 9); with keys held
the least goes to Vx. -/
def Obligations.KeyWaitTakesTheLowestHeldKey : Prop :=
  ∀ (x : Reg) (s : State),
    decode (BitVec.ofNat 16 (0xF00A + 0x100 * x.val)) = .ok (.ldKey x) ∧
    ((∀ k, s.keys.get k = false) → exec (.ldKey x) s = .next { s with pc := s.pc - 2 }) ∧
    (∀ k, s.keys.get k = true → (∀ j, j < k → s.keys.get j = false) →
      ∃ t, exec (.ldKey x) s = .next t ∧ (t.reg x).toNat = k.val ∧ (∀ r, r ≠ x → t.reg r = s.reg r) ∧ t = { s with V := t.V }) ∧
    (s.status = .running → s.pc.toNat ≤ 0xFFE →
      decode (Word.ofBytes (s.mem.read s.pc.toNat) (s.mem.read (s.pc.toNat + 1))) = .ok (.ldKey x) →
      (∀ k, s.keys.get k = false) → step s = .next { s with initialising := false })

/-! ## The whole machine -/

/-- Every step of every state answers a next state: no instruction is refused, and the spec's faults are states (R70,
R155; that a raised fault is a next state is the model's choice, log 1). -/
def Obligations.EveryStepAnswersANextState : Prop := ∀ s : State, ∃ t, step s = .next t

/-- Which faults each form can raise in its execute phase, exhaustively, and that no other form and no other condition
raises one (R151; `trapIn` is its table). -/
def Obligations.FormsRaiseExactlyTheListedFaults : Prop :=
  ∀ (i : Instr) (s : State),
    (∀ tr, trapIn i s = some tr → faultsWith (exec i s) tr) ∧
    (trapIn i s = none → ∃ t, exec i s = .next t ∧ (s.status ≠ .faulted → t.status ≠ .faulted))

/-- What a step may change (R72, derived there), element by element: outside the forms named, and short of a fault, the
registers, `pc` (beyond the advance, which precedes `exec`), `I`, the stack, the timers, `status` and memory are as before,
and the keys and `cause` always. The clauses on the fields that are not in R10's table rest on logs 7 (`advisory`), 9
(`initialising`) and 4 (`freeIndex`). -/
def Obligations.OnlyTheNamedFormsChangeEachElement : Prop :=
  ∀ (i : Instr) (s t : State), exec i s = .next t → trapIn i s = none →
    ((∀ x nn, i ≠ .ldImm x nn ∧ i ≠ .addImm x nn ∧ i ≠ .rnd x nn) →
      (∀ x y, i ≠ .ldReg x y ∧ i ≠ .orReg x y ∧ i ≠ .andReg x y ∧ i ≠ .xorReg x y) →
      (∀ x y, i ≠ .addReg x y ∧ i ≠ .sub x y ∧ i ≠ .shr x y ∧ i ≠ .subn x y ∧ i ≠ .shl x y) →
      (∀ x y n, i ≠ .drw x y n) → (∀ x, i ≠ .ldFromDT x ∧ i ≠ .ldKey x ∧ i ≠ .load x) → t.V = s.V) ∧
    (i ≠ .ret → (∀ nnn, i ≠ .jp nnn ∧ i ≠ .call nnn ∧ i ≠ .jpV0 nnn) → (∀ x nn, i ≠ .seImm x nn ∧ i ≠ .sneImm x nn) →
      (∀ x y, i ≠ .seReg x y ∧ i ≠ .sneReg x y) → (∀ x, i ≠ .skp x ∧ i ≠ .sknp x ∧ i ≠ .ldKey x) → t.pc = s.pc) ∧
    ((∀ nnn, i ≠ .ldI nnn) → (∀ x, i ≠ .addI x) → (∀ x, i ≠ .ldFont x) → t.I = s.I) ∧
    ((∀ nnn, i ≠ .call nnn) → i ≠ .ret → t.sp = s.sp ∧ t.stack = s.stack) ∧
    ((∀ x, i ≠ .ldDT x) → t.DT = s.DT) ∧
    ((∀ x, i ≠ .ldST x) → t.ST = s.ST) ∧
    (i ≠ .halt → t.status = s.status) ∧
    (i ≠ .cls → (∀ x y n, i ≠ .drw x y n) → (∀ x, i ≠ .bcd x) → (∀ x, i ≠ .store x) → t.mem = s.mem) ∧
    ((∀ x nn, i ≠ .rnd x nn) → t.freeIndex = s.freeIndex) ∧
    t.keys = s.keys ∧ t.cause = s.cause ∧ t.advisory = s.advisory ∧ t.initialising = s.initialising

/-- VF is written implicitly by six forms only (R12; that 8xy0 to 8xy3 are not among them is decision D11): any other form,
short of a fault, changes it only as the register destination `x`, or as the last register of `FF65`. -/
def Obligations.OnlyTheFlagFormsWriteVFImplicitly : Prop :=
  ∀ (i : Instr) (s t : State), exec i s = .next t → trapIn i s = none →
    (∀ x y, i ≠ .addReg x y ∧ i ≠ .sub x y ∧ i ≠ .shr x y ∧ i ≠ .subn x y ∧ i ≠ .shl x y) → (∀ x y n, i ≠ .drw x y n) →
    (∀ nn y, i ≠ .ldImm 15 nn ∧ i ≠ .addImm 15 nn ∧ i ≠ .rnd 15 nn ∧ i ≠ .ldReg 15 y ∧ i ≠ .orReg 15 y ∧
      i ≠ .andReg 15 y ∧ i ≠ .xorReg 15 y ∧ i ≠ .ldFromDT 15 ∧ i ≠ .ldKey 15 ∧ i ≠ .load 15) →
    t.reg 15 = s.reg 15

/-- "no other instruction produces a terminal state" (R73): a running core is halted by a step exactly when it fetches the
all-zero word. -/
def Obligations.OnlyTheHaltWordHalts : Prop :=
  ∀ s t : State, s.status = .running → step s = .next t →
    (t.status = .halted ↔ s.pc.toNat ≤ 0xFFE ∧ s.mem.read s.pc.toNat = 0 ∧ s.mem.read (s.pc.toNat + 1) = 0)

/-- Only `reset` leaves HALTED and FAULTED (R18, R156, R175; decisions D3, D19): any other transaction keeps FAULTED with
its cause, and keeps HALTED with registers, `I`, `pc`, the stack and memory as they are. The premise is the model's
invariant (a core that has not been stepped since reset is running, log 9). That `tick` and `set_keys` answer a next state
on a FAULTED core and keep the advisory information is the model's choice (logs 14 and 7); R156 keeps `status` and
`cause` only. -/
def Obligations.OnlyResetLeavesHaltedAndFaulted : Prop :=
  ∀ (tr : Transaction) (s u : State), s.Inv → tr ≠ .reset → transact tr s = .next u →
    (s.status = .faulted → u.status = .faulted ∧ u.cause = s.cause ∧ u.advisory = s.advisory) ∧
    (s.status = .halted → u.status = .halted ∧ u.V = s.V ∧ u.I = s.I ∧ u.pc = s.pc ∧ u.stack = s.stack ∧ u.sp = s.sp ∧
      u.mem = s.mem)

/-- `step` leaves the timers unchanged except through `Fx15` and `Fx18`, and `tick` is the only transaction that counts
them down (R71). Short of a fault, after which no timer has a specified value (R155). -/
def Obligations.StepMovesATimerOnlyByItsOwnForm : Prop :=
  (∀ s t : State, s.status = .running → step s = .next t → t.status ≠ .faulted →
    ∃ i, decode (Word.ofBytes (s.mem.read s.pc.toNat) (s.mem.read (s.pc.toNat + 1))) = .ok i ∧
      (t.DT = s.DT ∨ ∃ x, i = .ldDT x ∧ t.DT = s.reg x) ∧ (t.ST = s.ST ∨ ∃ x, i = .ldST x ∧ t.ST = s.reg x)) ∧
  (∀ (tr : Transaction) (s u : State), tr ≠ .tick → tr ≠ .step → tr ≠ .reset → s.status ≠ .faulted →
    transact tr s = .next u → u.DT = s.DT ∧ u.ST = s.ST)

/-! ## Invariants (spec/10_state.md R21) -/

/-- Every step keeps the invariant: memory in its canonical form within the 4096 cells; short of a fault, `pc` at most
0x10FE and every live stack entry at most 0x1000 (R13, R21, derived there; the canonical form is log 10's and
`initRunning` log 9's). -/
def Obligations.StepKeepsTheInvariant : Prop := ∀ s t : State, s.Inv → step s = .next t → t.Inv

/-- The reset state meets the invariant. That the stack is empty and the core RUNNING at reset is decision D7 (log 8); the
canonical form of memory is log 10's and `initRunning` log 9's. -/
def Obligations.ResetStateMeetsTheInvariant : Prop := State.reset.Inv

/-- Every host transaction keeps the invariant. -/
def Obligations.TransactionsKeepTheInvariant : Prop :=
  ∀ (tr : Transaction) (s t : State), s.Inv → transact tr s = .next t → t.Inv

/-- R21 of every run: after any schedule of transactions from any state that meets the invariant (the reset state among
them), `pc` is at most 0x10FE and every live stack entry at most 0x1000 unless a fault has been raised. The rest of the
invariant is the model's: the canonical form of memory is log 10's, `initRunning` log 9's. -/
def Obligations.EveryScheduleKeepsPcAndStackInRange : Prop :=
  ∀ (ts : List Transaction) (s t : State), s.Inv → runSchedule ts s = .next t →
    t.Inv ∧ (t.status ≠ .faulted → t.pc.toNat ≤ 0x10FE ∧ ∀ k : Fin 16, k.val < t.sp.val → (t.stack.get k).toNat ≤ 0x1000)

/-- What no rule reads has no influence (R15: entries at `sp` and above are unobservable; R18, R150: `cause` and its
advisory information mean something only when FAULTED): two states that agree on the rest answer every transaction alike,
with the same reply, and their next states agree on the rest again. It compares two runs, and gives both the same random
byte and the same unspecified values because their `freeIndex` agrees: that is the model's choice, which the spec does not
promise (logs 2, 3 and 14). The advisory information is log 7's. -/
def Obligations.DeadStackEntriesAndUnsetCauseHaveNoInfluence : Prop :=
  ∀ (tr : Transaction) (s t : State), s.SameLive t →
    reply tr s = reply tr t ∧
    (∀ r, transact tr s = .refused r → transact tr t = .refused r) ∧
    (∀ s', transact tr s = .next s' → ∃ t', transact tr t = .next t' ∧ s'.SameLive t')

/-! ## Reset and host transactions (spec/70_reset_and_hazards.md, spec/46_host_transactions.md) -/

/-- `reset` from any state puts every element at R170's value. The values other than `pc` and memory are the spec's
decision D7. Nothing is said of the stack entries and `cause`, which R170 leaves unspecified. -/
def Obligations.ResetPutsEveryElementAtItsValue : Prop :=
  ∀ s : State, ∃ t, transact .reset s = .next t ∧ t.pc = 0x0200 ∧ (∀ a, t.mem.read a = 0) ∧ (∀ r, t.reg r = 0) ∧ t.I = 0 ∧
    t.sp = 0 ∧ t.DT = 0 ∧ t.ST = 0 ∧ (∀ k, t.keys.get k = false) ∧ t.status = .running ∧ t.initialising = true

/-- `set_keys`: R144. All sixteen entries are replaced and nothing else, in RUNNING and HALTED; in FAULTED, where
R144 and R156 specify no effect, that it answers a next state is log 14's choice, and that the core stays FAULTED with its
cause is decision D3. -/
def Obligations.SetKeysReplacesAllSixteen : Prop :=
  ∀ (k : Vector Bool 16) (s : State),
    (s.status ≠ .faulted → transact (.setKeys k) s = .next { s with keys := k }) ∧
    (s.status = .faulted → ∃ u, transact (.setKeys k) s = .next u ∧ u.status = .faulted ∧ u.cause = s.cause)

/-- `tick`: both timers count down, clamped at zero, and nothing else changes, in RUNNING and HALTED. Rests on decisions
D19 and D27. -/
def Obligations.TickCountsBothTimersDownToZero : Prop :=
  ∀ s : State, s.status ≠ .faulted →
    ∃ t, transact .tick s = .next t ∧ t.DT.toNat = s.DT.toNat - 1 ∧ t.ST.toNat = s.ST.toNat - 1 ∧
      t = { s with DT := t.DT, ST := t.ST }

/-- The loaders and `host_write` (R141, R142, R143): during initialisation a font of 80 bytes at 0x050, an image of at most
3584 bytes at 0x200 and one cell are written and nothing else; other lengths and addresses, and every call after the first
step, are refused. Rests on decisions D22, D23 and D24. -/
def Obligations.LoadersWriteTheirBytesDuringInitialisation : Prop :=
  ∀ (bytes : List Byte) (a : Nat) (b : Byte) (s : State),
    (s.initialising = true → bytes.length = 80 →
      ∃ t, transact (.loadFont bytes) s = .next t ∧ (∀ j, j < 80 → bytes[j]? = some (t.mem.read (0x050 + j))) ∧
        (∀ c, c < 0x050 ∨ 0x09F < c → t.mem.read c = s.mem.read c) ∧ t = { s with mem := t.mem }) ∧
    (s.initialising = true → bytes.length ≤ 3584 →
      ∃ t, transact (.loadProgram bytes) s = .next t ∧
        (∀ j, j < bytes.length → bytes[j]? = some (t.mem.read (0x200 + j))) ∧
        (∀ c, c < 0x200 ∨ 0x200 + bytes.length ≤ c → t.mem.read c = s.mem.read c) ∧ t = { s with mem := t.mem }) ∧
    (s.initialising = true → a ≤ 0xFFF →
      ∃ t, transact (.hostWrite a b) s = .next t ∧ t.mem.read a = b ∧ (∀ c, c ≠ a → t.mem.read c = s.mem.read c) ∧
        t = { s with mem := t.mem }) ∧
    ((s.initialising = false ∨ bytes.length ≠ 80) → ∃ r, transact (.loadFont bytes) s = .refused r) ∧
    ((s.initialising = false ∨ 3584 < bytes.length) → ∃ r, transact (.loadProgram bytes) s = .refused r) ∧
    ((s.initialising = false ∨ 0xFFF < a) → ∃ r, transact (.hostWrite a b) s = .refused r)

/-- `fb_read`: R146. It returns the 256 bytes 0xF00 to 0xFFF and has no side effect. That it does so on a FAULTED core
too, where R156 specifies no effect, is the model's choice (log 15). -/
def Obligations.FramebufferReadReturnsItsBytes : Prop :=
  ∀ s : State, transact .fbRead s = .next s ∧
    ∃ bs : List Byte, reply .fbRead s = .bytes bs ∧ bs.length = 256 ∧ ∀ k, k < 256 → bs[k]? = some (s.mem.read (0xF00 + k))

/-- `host_read` and `status_read` (R143, R147): the byte at a valid address; the status, with the cause and the advisory
information when FAULTED; no side effect. Rests on decision D1; the advisory information is log 7's, and that `host_read` works so on a FAULTED
core too, where R156 specifies no effect, is the model's choice (log 15). -/
def Obligations.HostReadsReturnWhatTheCoreHolds : Prop :=
  ∀ (a : Nat) (s : State),
    (a ≤ 0xFFF → transact (.hostRead a) s = .next s ∧ reply (.hostRead a) s = .byte (s.mem.read a)) ∧
    (0xFFF < a → ∃ r, transact (.hostRead a) s = .refused r) ∧
    transact .statusRead s = .next s ∧
    (s.status = .faulted → reply .statusRead s = .status .faulted (some (s.cause, s.advisory))) ∧
    (s.status ≠ .faulted → reply .statusRead s = .status s.status none)

/-- How a program comes to run (R172): after `reset` and `load_program`, from whatever state, the first step runs the
instruction in the image's first two bytes; and with nothing loaded the first step halts (R57). -/
def Obligations.FirstStepRunsTheLoadedProgram : Prop :=
  ∀ (hi lo : Byte) (rest : List Byte) (i : Instr) (s : State), rest.length + 2 ≤ 3584 →
    decode (Word.ofBytes hi lo) = .ok i →
    (∃ t, runSchedule [.reset, .loadProgram (hi :: lo :: rest)] s = .next t ∧ t.pc = 0x200 ∧
      step t = exec i { t with pc := 0x202, initialising := false }) ∧
    (∃ t, runSchedule [.reset, .step] s = .next t ∧ t.status = .halted ∧ t.pc = 0x202)
end

