-- ==== Sys2Proof/Laws/Decode.lean ====
section
/-!
SUPPORT. The fields of a word built by one of the formats (spec/30_encoding.md R51, R52), and the word rebuilt from its
fields: what a proof about decoding and encoding cites instead of the arithmetic.
-/
namespace Sys2Proof

theorem nibble_val (w : Word) (lo : Nat) : (nibble w lo).val = w.toNat / 2 ^ lo % 16 := rfl

theorem word_lt (w : Word) : w.toNat < 65536 := w.isLt

/-! ## Fields of a format -/

theorem toNat_formatA {mode : Nat} (nnn : Addr12) (h : mode < 16) : (formatA mode nnn).toNat = mode * 4096 + nnn.toNat := by
  have := nnn.isLt; simp only [formatA, BitVec.toNat_ofNat]; omega

theorem toNat_formatXN {mode : Nat} (x : Reg) (nn : Byte) (h : mode < 16) :
    (formatXN mode x nn).toNat = mode * 4096 + x.val * 256 + nn.toNat := by
  have := x.isLt; have := nn.isLt; simp only [formatXN, BitVec.toNat_ofNat]; omega

theorem toNat_formatXYN {mode : Nat} (x y n : Fin 16) (h : mode < 16) :
    (formatXYN mode x y n).toNat = mode * 4096 + x.val * 256 + y.val * 16 + n.val := by
  have := x.isLt; have := y.isLt; have := n.isLt; simp only [formatXYN, BitVec.toNat_ofNat]; omega

theorem fieldMode_formatA {mode : Nat} (nnn : Addr12) (h : mode < 16) : fieldMode (formatA mode nnn) = mode := by
  have := nnn.isLt; simp only [fieldMode, slice, toNat_formatA nnn h]; omega

theorem fieldNNN_formatA {mode : Nat} (nnn : Addr12) (h : mode < 16) : fieldNNN (formatA mode nnn) = nnn := by
  apply BitVec.eq_of_toNat_eq
  have := nnn.isLt; simp only [fieldNNN, slice, toNat_formatA nnn h, BitVec.toNat_ofNat]; omega

theorem fieldMode_formatXN {mode : Nat} (x : Reg) (nn : Byte) (h : mode < 16) : fieldMode (formatXN mode x nn) = mode := by
  have := x.isLt; have := nn.isLt; simp only [fieldMode, slice, toNat_formatXN x nn h]; omega

theorem fieldX_formatXN {mode : Nat} (x : Reg) (nn : Byte) (h : mode < 16) : fieldX (formatXN mode x nn) = x := by
  apply Fin.ext
  have := x.isLt; have := nn.isLt; simp only [fieldX, nibble_val, toNat_formatXN x nn h]; omega

theorem slice_formatXN {mode : Nat} (x : Reg) (nn : Byte) (h : mode < 16) : slice (formatXN mode x nn) 0 8 = nn.toNat := by
  have := x.isLt; have := nn.isLt; simp only [slice, toNat_formatXN x nn h]; omega

theorem fieldNN_formatXN {mode : Nat} (x : Reg) (nn : Byte) (h : mode < 16) : fieldNN (formatXN mode x nn) = nn := by
  apply BitVec.eq_of_toNat_eq
  have := nn.isLt; simp only [fieldNN, slice_formatXN x nn h, BitVec.toNat_ofNat]; omega

theorem fieldMode_formatXYN {mode : Nat} (x y n : Fin 16) (h : mode < 16) : fieldMode (formatXYN mode x y n) = mode := by
  have := x.isLt; have := y.isLt; have := n.isLt; simp only [fieldMode, slice, toNat_formatXYN x y n h]; omega

theorem fieldX_formatXYN {mode : Nat} (x y n : Fin 16) (h : mode < 16) : fieldX (formatXYN mode x y n) = x := by
  apply Fin.ext
  have := x.isLt; have := y.isLt; have := n.isLt; simp only [fieldX, nibble_val, toNat_formatXYN x y n h]; omega

theorem fieldY_formatXYN {mode : Nat} (x y n : Fin 16) (h : mode < 16) : fieldY (formatXYN mode x y n) = y := by
  apply Fin.ext
  have := x.isLt; have := y.isLt; have := n.isLt; simp only [fieldY, nibble_val, toNat_formatXYN x y n h]; omega

theorem fieldN_formatXYN {mode : Nat} (x y n : Fin 16) (h : mode < 16) : fieldN (formatXYN mode x y n) = n := by
  apply Fin.ext
  have := x.isLt; have := y.isLt; have := n.isLt; simp only [fieldN, nibble_val, toNat_formatXYN x y n h]; omega

/-! ## A word from its fields -/

theorem formatA_of_fields (w : Word) : formatA (fieldMode w) (fieldNNN w) = w := by
  apply BitVec.eq_of_toNat_eq
  have := word_lt w
  simp only [formatA, fieldMode, fieldNNN, slice, BitVec.toNat_ofNat]; omega

theorem formatXN_of_fields (w : Word) : formatXN (fieldMode w) (fieldX w) (fieldNN w) = w := by
  apply BitVec.eq_of_toNat_eq
  have := word_lt w
  simp only [formatXN, fieldMode, fieldX, nibble_val, fieldNN, slice, BitVec.toNat_ofNat]; omega

theorem formatXYN_of_fields (w : Word) : formatXYN (fieldMode w) (fieldX w) (fieldY w) (fieldN w) = w := by
  apply BitVec.eq_of_toNat_eq
  have := word_lt w
  simp only [formatXYN, fieldMode, fieldX, fieldY, fieldN, nibble_val, slice, BitVec.toNat_ofNat]; omega

theorem fieldMode_lt (w : Word) : fieldMode w < 16 := Nat.mod_lt _ (by decide)

/-! ## Masks -/

/-- The mask 0xF000 keeps the mode. -/
theorem and_mask_mode {w : Word} {mode : Nat} (h : fieldMode w = mode) : w &&& 0xF000#16 = BitVec.ofNat 16 (mode * 4096) := by
  have hw : w &&& 0xF000#16 = (w >>> 12) <<< 12 := by
    apply BitVec.eq_of_getLsbD_eq
    intro k hk
    have hm : ∀ j < 16, (0xF000#16).getLsbD j = decide (12 ≤ j) := by decide
    rw [BitVec.getLsbD_and, hm k hk]
    by_cases h : 12 ≤ k
    · simp [h, show ¬k < 12 by omega, hk, show 12 + (k - 12) = k by omega]
    · simp [h, show k < 12 by omega]
  have := word_lt w
  rw [hw, ← h]
  apply BitVec.eq_of_toNat_eq
  simp only [BitVec.toNat_shiftLeft, BitVec.toNat_ushiftRight, Nat.shiftRight_eq_div_pow, Nat.shiftLeft_eq, BitVec.toNat_ofNat,
    fieldMode, slice]
  omega

/-- The masks 0xF00F and 0xF0FF keep the mode and the low 4 or 8 bits. -/
theorem and_mask_low {w : Word} {mode low : Nat} (j : Nat) (hj : j ≤ 16) (hm : fieldMode w = mode) (hl : slice w 0 j = low) :
    w &&& (0xF000#16 ||| BitVec.ofNat 16 (2 ^ j - 1)) = BitVec.ofNat 16 (mode * 4096) ||| BitVec.ofNat 16 low := by
  rw [BitVec.and_or_distrib_left, and_mask_mode hm]
  congr 1
  have hp : 2 ^ j ≤ 2 ^ 16 := Nat.pow_le_pow_right (by decide) hj
  have hp0 : 0 < 2 ^ j := Nat.pow_pos (by decide)
  apply BitVec.eq_of_toNat_eq
  rw [BitVec.toNat_and, BitVec.toNat_ofNat, Nat.mod_eq_of_lt (by omega : 2 ^ j - 1 < 2 ^ 16), Nat.and_two_pow_sub_one_eq_mod,
    BitVec.toNat_ofNat, ← hl, slice, pow_zero, Nat.div_one]
  have := Nat.mod_lt w.toNat hp0
  omega

theorem slice_formatXYN {mode : Nat} (x y n : Fin 16) (h : mode < 16) : slice (formatXYN mode x y n) 0 4 = n.val := by
  have := x.isLt; have := y.isLt; have := n.isLt; simp only [slice, toNat_formatXYN x y n h]; omega

/-! ## Bytes of a word -/

theorem Word.ofBytes_hi_lo (w : Word) : Word.ofBytes w.hi w.lo = w := by
  apply BitVec.eq_of_toNat_eq
  have := word_lt w
  simp only [BitVec.toNat_ofNat]; omega

theorem toNat_wordOfBytes (hi lo : Byte) : (Word.ofBytes hi lo).toNat = hi.toNat * 256 + lo.toNat := by
  have := hi.isLt; have := lo.isLt; simp only [BitVec.toNat_ofNat]; omega

end Sys2Proof
end

