-- ==== Sys2Proof/Laws/Memory.lean ====
section
/-!
SUPPORT. Memory: read after write, the canonical form, the checked accessors and the multi-byte transfers, each said once.
-/
namespace Sys2Proof.Machine

/-! ## Read after write -/

@[simp] theorem Memory.read_nil (a : Nat) : Memory.read [] a = 0#8 := rfl

theorem Memory.read_cons_eq {c : Host.Cell} (m : Memory) {a : Nat} (h : c.1 = a) : Memory.read (c :: m) a = c.2 := if_pos h

theorem Memory.read_cons_ne {c : Host.Cell} (m : Memory) {a : Nat} (h : c.1 ≠ a) :
    Memory.read (c :: m) a = m.read a := if_neg h

theorem Memory.erase_cons_eq {c : Host.Cell} (m : Memory) {a : Nat} (h : c.1 = a) :
    Memory.erase (c :: m) a = m.erase a := if_pos h

theorem Memory.erase_cons_ne {c : Host.Cell} (m : Memory) {a : Nat} (h : c.1 ≠ a) :
    Memory.erase (c :: m) a = c :: m.erase a := if_neg h

theorem Memory.insert_cons_lt {c : Host.Cell} (m : Memory) {a : Nat} (v : Byte) (h : a < c.1) :
    Memory.insert (c :: m) a v = (a, v) :: c :: m := if_pos h

theorem Memory.insert_cons_ge {c : Host.Cell} (m : Memory) {a : Nat} (v : Byte) (h : ¬a < c.1) :
    Memory.insert (c :: m) a v = c :: m.insert a v := if_neg h

theorem Memory.read_erase (m : Memory) (a b : Nat) : (m.erase a).read b = if b = a then 0#8 else m.read b := by
  induction m with
  | nil => simp [Memory.erase]
  | cons c m ih =>
    by_cases hc : c.1 = a
    · rw [Memory.erase_cons_eq m hc, ih]
      by_cases hb : b = a
      · simp only [hb, if_true]
      · rw [if_neg hb, if_neg hb, Memory.read_cons_ne m (by omega)]
    · rw [Memory.erase_cons_ne m hc]
      by_cases hb : c.1 = b
      · rw [Memory.read_cons_eq _ hb, Memory.read_cons_eq _ hb, if_neg (by omega)]
      · rw [Memory.read_cons_ne _ hb, Memory.read_cons_ne _ hb, ih]

theorem Memory.read_insert {m : Memory} {a : Nat} (b : Nat) (v : Byte) (hne : ∀ c ∈ m, c.1 ≠ a) :
    (m.insert a v).read b = if b = a then v else m.read b := by
  induction m with
  | nil =>
    by_cases hb : b = a
    · rw [if_pos hb]; exact Memory.read_cons_eq [] hb.symm
    · rw [if_neg hb]; exact Memory.read_cons_ne [] (Ne.symm hb)
  | cons c m ih =>
    have ih := ih (fun d hd => hne d (List.mem_cons_of_mem _ hd))
    by_cases hlt : a < c.1
    · rw [Memory.insert_cons_lt m v hlt]
      by_cases hb : b = a
      · rw [if_pos hb]; exact Memory.read_cons_eq _ hb.symm
      · rw [if_neg hb]; exact Memory.read_cons_ne _ (Ne.symm hb)
    · rw [Memory.insert_cons_ge m v hlt]
      by_cases hb : c.1 = b
      · have := hne c (by simp)
        rw [Memory.read_cons_eq _ hb, Memory.read_cons_eq _ hb, if_neg (by omega)]
      · rw [Memory.read_cons_ne _ hb, Memory.read_cons_ne _ hb, ih]

theorem Memory.erase_eq_filter (m : Memory) (a : Nat) : m.erase a = m.filter (fun c => !decide (c.1 = a)) := by
  induction m with
  | nil => rfl
  | cons c m ih => by_cases hc : c.1 = a <;> simp [Memory.erase, hc, ih]

theorem Memory.not_mem_erase (m : Memory) (a : Nat) : ∀ c ∈ m.erase a, c.1 ≠ a := by
  intro c hc; rw [Memory.erase_eq_filter] at hc; simpa using (List.mem_filter.1 hc).2

/-- Reading after a write: the byte written at its address, every other address as before (R33). -/
theorem Memory.read_write (m : Memory) (a b : Nat) (v : Byte) :
    (m.write a v).read b = if b = a then v else m.read b := by
  by_cases hv : v = Config.blankByte
  · subst hv; simpa [Memory.write] using Memory.read_erase m a b
  · rw [Memory.write, if_neg hv, Memory.read_insert b v (Memory.not_mem_erase m a), Memory.read_erase]
    by_cases hb : b = a <;> simp [hb]

@[simp] theorem Memory.read_write_same (m : Memory) (a : Nat) (v : Byte) : (m.write a v).read a = v := by
  simp [Memory.read_write]

theorem Memory.read_write_ne (m : Memory) {a b : Nat} (v : Byte) (h : b ≠ a) : (m.write a v).read b = m.read b := by
  simp [Memory.read_write, h]

/-! ## The canonical form -/

theorem Memory.wf_nil : Memory.wf [] := ⟨.nil, by simp⟩

theorem Memory.wf_filter {m : Memory} (p : Host.Cell → Bool) (h : m.wf) : Memory.wf (m.filter p) :=
  ⟨h.1.filter p, fun c hc => h.2 c (List.mem_of_mem_filter hc)⟩

theorem Memory.wf_erase {m : Memory} (a : Nat) (h : m.wf) : (m.erase a).wf := by
  rw [Memory.erase_eq_filter]; exact Memory.wf_filter _ h

theorem Memory.mem_insert {m : Memory} {a : Nat} {v : Byte} {c : Host.Cell} (h : c ∈ m.insert a v) :
    c = (a, v) ∨ c ∈ m := by
  induction m with
  | nil => simpa [Memory.insert] using h
  | cons d m ih =>
    by_cases hlt : a < d.1
    · simpa [Memory.insert, hlt] using h
    · simp only [Memory.insert, hlt, if_false, List.mem_cons] at h
      rcases h with h | h
      · exact .inr (by simp [h])
      · rcases ih h with h | h
        · exact .inl h
        · exact .inr (by simp [h])

theorem Memory.wf_insert {m : Memory} {a : Nat} {v : Byte} (h : m.wf) (hne : ∀ c ∈ m, c.1 ≠ a)
    (ha : a < Config.memSize) (hv : v ≠ Config.blankByte) : (m.insert a v).wf := by
  refine ⟨?_, fun c hc => ?_⟩
  · obtain ⟨hs, -⟩ := h
    induction m with
    | nil => simp [Memory.insert]
    | cons d m ih =>
      rw [List.pairwise_cons] at hs
      by_cases hlt : a < d.1
      · simp only [Memory.insert, hlt, if_true, List.pairwise_cons]
        refine ⟨fun c hc => ?_, hs⟩
        rcases List.mem_cons.1 hc with rfl | hc
        · exact hlt
        · exact hlt.trans (hs.1 c hc)
      · simp only [Memory.insert, hlt, if_false, List.pairwise_cons]
        refine ⟨fun c hc => ?_, ih (fun c hc => hne c (List.mem_cons_of_mem _ hc)) hs.2⟩
        rcases Memory.mem_insert hc with rfl | hc
        · have := hne d (by simp); simp only; omega
        · exact hs.1 c hc
  · rcases Memory.mem_insert hc with rfl | hc
    · exact ⟨ha, hv⟩
    · exact h.2 c hc

/-- A write at a valid address keeps the canonical form. -/
theorem Memory.wf_write {m : Memory} {a : Nat} (v : Byte) (h : m.wf) (ha : a < Config.memSize) : (m.write a v).wf := by
  by_cases hv : v = Config.blankByte
  · simpa only [Memory.write, hv, if_true] using Memory.wf_erase a h
  · simpa only [Memory.write, hv, if_false] using Memory.wf_insert (Memory.wf_erase a h) (Memory.not_mem_erase m a) ha hv

theorem Memory.read_eq_blank {m : Memory} {a : Nat} (h : ∀ c ∈ m, c.1 ≠ a) : m.read a = Config.blankByte := by
  induction m with
  | nil => rfl
  | cons c m ih =>
    rw [Memory.read, if_neg (h c (by simp))]
    exact ih (fun d hd => h d (List.mem_cons_of_mem _ hd))

/-- In the canonical form an address is listed exactly when its byte is not blank. -/
theorem Memory.mem_iff_read {m : Memory} (h : m.wf) (a : Nat) (v : Byte) :
    (a, v) ∈ m ↔ m.read a = v ∧ v ≠ Config.blankByte := by
  induction m with
  | nil => simp only [List.not_mem_nil, Memory.read, false_iff]; exact fun ⟨h1, h2⟩ => h2 h1.symm
  | cons c m ih =>
    obtain ⟨hs, hb⟩ := h
    rw [List.pairwise_cons] at hs
    have ih := ih ⟨hs.2, fun d hd => hb d (List.mem_cons_of_mem _ hd)⟩
    by_cases hc : c.1 = a
    · rw [Memory.read, if_pos hc, List.mem_cons]
      constructor
      · rintro (h | h)
        · exact ⟨by rw [← h], by have := (hb c (by simp)).2; rwa [← h] at this⟩
        · exact absurd hc (Nat.ne_of_lt (hs.1 _ h))
      · rintro ⟨h, -⟩; exact .inl (by rw [← h, ← hc])
    · rw [Memory.read, if_neg hc, List.mem_cons, ← ih]
      exact ⟨fun h => h.resolve_left (fun h => hc (by rw [← h])), .inr⟩

/-- Equal memories are equal lists: two canonical memories that read the same everywhere are the same data. -/
theorem Memory.ext_of_read {m k : Memory} (hm : m.wf) (hk : k.wf) (h : ∀ a, m.read a = k.read a) : m = k := by
  have hmem : ∀ c : Host.Cell, c ∈ m ↔ c ∈ k := fun c => by
    rw [show c = (c.1, c.2) from rfl, Memory.mem_iff_read hm, Memory.mem_iff_read hk, h]
  have hn : ∀ {l : Memory}, l.wf → l.Nodup := fun hl => hl.1.imp (fun h => fun e => by rw [e] at h; exact Nat.lt_irrefl _ h)
  exact ((List.perm_ext_iff_of_nodup (hn hm) (hn hk)).2 hmem).eq_of_pairwise
    (fun a b _ _ h1 h2 => absurd h2 (Nat.lt_asymm h1)) hm.1 hk.1

/-- Memory of free or given cells is in the canonical form. -/
theorem Memory.wf_ofCells (f : Nat → Byte) : (Memory.ofCells f).wf := by
  unfold Memory.ofCells
  constructor
  · rw [List.pairwise_filterMap]
    refine List.pairwise_lt_range.imp ?_
    intro a b hab c hc d hd
    by_cases ha : f a = Config.blankByte <;> simp [ha] at hc
    by_cases hb : f b = Config.blankByte <;> simp [hb] at hd
    subst hc hd; exact hab
  · intro c hc
    obtain ⟨a, ha, hc⟩ := List.mem_filterMap.1 hc
    by_cases hf : f a = Config.blankByte <;> simp [hf] at hc
    subst hc; exact ⟨List.mem_range.1 ha, hf⟩

/-! ## The loaders' copy -/

theorem Memory.read_writeAll (m : Memory) (a : Nat) (bs : List Byte) (b : Nat) :
    (m.writeAll a bs).read b = if a ≤ b ∧ b < a + bs.length then bs.getD (b - a) 0#8 else m.read b := by
  induction bs generalizing m a with
  | nil => simp [Memory.writeAll]
  | cons v bs ih =>
    rw [Memory.writeAll, ih, List.length_cons]
    by_cases h0 : b = a
    · subst h0; simp
    · by_cases h : a ≤ b ∧ b < a + (bs.length + 1)
      · have h' : a + 1 ≤ b ∧ b < a + 1 + bs.length := by omega
        rw [if_pos h, if_pos h', show b - a = (b - (a + 1)) + 1 by omega, List.getD_cons_succ]
      · have h' : ¬(a + 1 ≤ b ∧ b < a + 1 + bs.length) := by omega
        rw [if_neg h, if_neg h', Memory.read_write_ne _ _ h0]

theorem Memory.wf_writeAll {m : Memory} {a : Nat} {bs : List Byte} (h : m.wf) (ha : a + bs.length ≤ Config.memSize) :
    (m.writeAll a bs).wf := by
  induction bs generalizing m a with
  | nil => exact h
  | cons v bs ih =>
    rw [List.length_cons] at ha
    exact ih (Memory.wf_write v h (by omega)) (by omega)

theorem Memory.length_readAll (m : Memory) (a n : Nat) : (m.readAll a n).length = n := by simp [Memory.readAll]

/-! ## The checked accessors -/

theorem checkAccess_ok {addr n : Nat} (h : addr + n ≤ 0x1000) : checkAccess addr n = .ok () := by
  simp [checkAccess, Config.memSize, h]

theorem checkAccess_error {addr n : Nat} (h : 0x1000 < addr + n) :
    checkAccess addr n = .error (.outOfRange (max addr 0x1000)) := by
  have : ¬addr + n ≤ 0x1000 := by omega
  simp [checkAccess, Config.memSize, this]

theorem memRead_ok (m : Memory) {addr : Nat} (h : addr ≤ 0xFFF) : memRead m addr = .ok (m.read addr) := by
  simp [memRead, checkAccess_ok (show addr + 1 ≤ 0x1000 by omega)]

theorem memRead_error (m : Memory) {addr : Nat} (h : 0xFFF < addr) : memRead m addr = .error (.outOfRange addr) := by
  simp [memRead, checkAccess_error (show 0x1000 < addr + 1 by omega), show max addr 0x1000 = addr by omega]

theorem memRead16_ok (m : Memory) {addr : Nat} (h : addr ≤ 0xFFE) :
    memRead16 m addr = .ok (Word.ofBytes (m.read addr) (m.read (addr + 1))) := by
  simp [memRead16, checkAccess_ok (show addr + 2 ≤ 0x1000 by omega)]

theorem memRead16_error (m : Memory) {addr : Nat} (h : 0xFFE < addr) :
    memRead16 m addr = .error (.outOfRange (max addr 0x1000)) := by
  simp [memRead16, checkAccess_error (show 0x1000 < addr + 2 by omega)]

theorem memWrite_ok (m : Memory) {addr : Nat} (v : Byte) (h : addr ≤ 0xFFF) : memWrite m addr v = .ok (m.write addr v) := by
  simp [memWrite, checkAccess_ok (show addr + 1 ≤ 0x1000 by omega)]

theorem memWrite_error (m : Memory) {addr : Nat} (v : Byte) (h : 0xFFF < addr) :
    memWrite m addr v = .error (.outOfRange addr) := by
  simp [memWrite, checkAccess_error (show 0x1000 < addr + 1 by omega), show max addr 0x1000 = addr by omega]

/-- A write that the bounds check lets through keeps the canonical form. -/
theorem wf_memWrite {m k : Memory} {addr : Nat} {v : Byte} (h : m.wf) (hk : memWrite m addr v = .ok k) : k.wf := by
  by_cases ha : addr ≤ 0xFFF
  · rw [memWrite_ok m v ha] at hk; injection hk with hk; subst hk
    exact Memory.wf_write v h (Nat.lt_succ_of_le ha)
  · rw [memWrite_error m v (by omega)] at hk; cases hk

theorem memWrite16_ok (m : Memory) {addr : Nat} (v : Word) (h : addr ≤ 0xFFE) :
    memWrite16 m addr v = .ok ((m.write addr v.hi).write (addr + 1) v.lo) := by
  simp [memWrite16, checkAccess_ok (show addr + 2 ≤ 0x1000 by omega)]

theorem memWrite16_error (m : Memory) {addr : Nat} (v : Word) (h : 0xFFE < addr) :
    memWrite16 m addr v = .error (.outOfRange (max addr 0x1000)) := by
  simp [memWrite16, checkAccess_error (show 0x1000 < addr + 2 by omega)]

theorem wf_memWrite16 {m k : Memory} {addr : Nat} {v : Word} (h : m.wf) (hk : memWrite16 m addr v = .ok k) : k.wf := by
  by_cases ha : addr ≤ 0xFFE
  · rw [memWrite16_ok m v ha] at hk; injection hk with hk; subst hk
    exact Memory.wf_write _ (Memory.wf_write _ h (by simp only [Config.memSize]; omega)) (by simp only [Config.memSize]; omega)
  · rw [memWrite16_error m v (by omega)] at hk; cases hk

/-- A store of several bytes keeps the canonical form. -/
theorem wf_storeBytes {m k : Memory} {addr : Nat} {bs : List Byte} (h : m.wf) (hk : storeBytes m addr bs = .ok k) : k.wf := by
  induction bs generalizing m addr with
  | nil => injection hk with hk; subst hk; exact h
  | cons b bs ih =>
    rw [storeBytes] at hk
    cases hw : memWrite m addr b with
    | ok m' => rw [hw] at hk; exact ih (wf_memWrite h hw) hk
    | error t => rw [hw] at hk; cases hk

/-- A store of some bytes that all fit is the loaders' copy. -/
theorem storeBytes_ok (m : Memory) {addr : Nat} {bs : List Byte} (h : addr + bs.length ≤ 0x1000) :
    storeBytes m addr bs = .ok (m.writeAll addr bs) := by
  induction bs generalizing m addr with
  | nil => rfl
  | cons b bs ih =>
    rw [List.length_cons] at h
    simp [storeBytes, memWrite_ok m b (show addr ≤ 0xFFF by omega), ih (m.write addr b) (show addr + 1 + bs.length ≤ 0x1000 by omega),
      Memory.writeAll]

/-- A store that runs out of memory raises, with the lowest offending address. -/
theorem storeBytes_error (m : Memory) {addr : Nat} {bs : List Byte} (h : 0x1000 < addr + bs.length) (hb : 0 < bs.length) :
    storeBytes m addr bs = .error (.outOfRange (max addr 0x1000)) := by
  induction bs generalizing m addr with
  | nil => simp at hb
  | cons b bs ih =>
    rw [List.length_cons] at h
    by_cases ha : addr ≤ 0xFFF
    · rw [storeBytes, memWrite_ok m b ha]
      simp only
      rw [ih (m.write addr b) (by omega) (by omega), show max (addr + 1) 0x1000 = max addr 0x1000 by omega]
    · simp [storeBytes, memWrite_error m b (show 0xFFF < addr by omega), show max addr 0x1000 = addr by omega]

theorem loadBytes_ok (m : Memory) {addr n : Nat} (h : addr + n ≤ 0x1000) : loadBytes m addr n = .ok (m.readAll addr n) := by
  induction n generalizing addr with
  | zero => rfl
  | succ n ih =>
    rw [loadBytes, memRead_ok m (show addr ≤ 0xFFF by omega), ih (show addr + 1 + n ≤ 0x1000 by omega)]
    simp only [Memory.readAll, List.range_succ_eq_map, List.map_cons, List.map_map, Nat.add_zero, Except.ok.injEq,
      List.cons.injEq, true_and]
    exact List.map_congr_left (fun k _ => by simp [Nat.add_assoc, Nat.add_comm 1])

theorem loadBytes_error (m : Memory) {addr n : Nat} (h : 0x1000 < addr + n) (hn : 0 < n) :
    loadBytes m addr n = .error (.outOfRange (max addr 0x1000)) := by
  induction n generalizing addr with
  | zero => simp at hn
  | succ n ih =>
    by_cases ha : addr ≤ 0xFFF
    · rw [loadBytes, memRead_ok m ha]
      simp only
      rw [ih (by omega) (by omega), show max (addr + 1) 0x1000 = max addr 0x1000 by omega]
    · rw [loadBytes, memRead_error m (show 0xFFF < addr by omega), show max addr 0x1000 = addr by omega]

end Sys2Proof.Machine
end

