-- ==== Sys2Proof/Laws/Display.lean ====
section
/-!
SUPPORT. The framebuffer and the sprite engine: what a toggle, a row and a whole sprite do to each pixel, to the
collision flag, and to memory outside the framebuffer.
-/
namespace Sys2Proof.Machine

/-! ## Geometry (R120) -/

theorem fbAddr_eq (px py : Nat) : fbAddr px py = 0xF00 + 8 * py + px / 8 := by
  simp only [fbAddr, pixelIndex, Config.fbBase, Config.dispW]; omega

theorem fbAddr_range {px py : Nat} (hx : px < 64) (hy : py < 32) : 0xF00 ≤ fbAddr px py ∧ fbAddr px py ≤ 0xFFF := by
  rw [fbAddr_eq]; omega

theorem fbMask_eq (px py : Nat) : fbMask px py = BitVec.twoPow 8 (7 - px % 8) := by
  have h8 : pixelIndex px py % 8 = px % 8 := by simp only [pixelIndex, Config.dispW]; omega
  rw [fbMask, h8]
  have : ∀ k : Fin 8, 0x80#8 >>> k.val = BitVec.twoPow 8 (7 - k.val) := by decide
  exact this ⟨px % 8, Nat.mod_lt _ (by decide)⟩

theorem and_twoPow_ne_zero (b : Byte) {k : Nat} (hk : k < 8) : (b &&& BitVec.twoPow 8 k != 0#8) = b.getLsbD k := by
  rw [BitVec.and_twoPow]
  cases h : b.getLsbD k
  · simp
  · simp only [if_true, bne_iff_ne]
    intro h0
    have : (BitVec.twoPow 8 k).getLsbD k = (0#8).getLsbD k := by rw [h0]
    simp [hk] at this

/-- A pixel is one bit of its byte, the leftmost in bit 7 (R120). -/
theorem pixel_eq (m : Memory) (px py : Nat) :
    pixel m px py = (m.read (0xF00 + 8 * py + px / 8)).getLsbD (7 - px % 8) := by
  rw [pixel, fbAddr_eq, fbMask_eq, and_twoPow_ne_zero _ (by omega)]

/-- Equal bytes in the framebuffer are equal pixels. -/
theorem read_eq_of_pixels {m k : Memory} (h : ∀ px < 64, ∀ py < 32, pixel k px py = pixel m px py) {a : Nat}
    (ha : 0xF00 ≤ a ∧ a ≤ 0xFFF) : k.read a = m.read a := by
  apply BitVec.eq_of_getLsbD_eq
  intro j hj
  have := h ((a - 0xF00) % 8 * 8 + (7 - j)) (by omega) ((a - 0xF00) / 8) (by omega)
  rw [pixel_eq, pixel_eq] at this
  rwa [show 0xF00 + 8 * ((a - 0xF00) / 8) + ((a - 0xF00) % 8 * 8 + (7 - j)) / 8 = a by omega,
    show 7 - ((a - 0xF00) % 8 * 8 + (7 - j)) % 8 = j by omega] at this

/-! ## Clear screen (R121) -/

theorem read_clearFramebuffer (m : Memory) (a : Nat) :
    (clearFramebuffer m).read a = if 0xF00 ≤ a ∧ a ≤ 0xFFF then 0#8 else m.read a := by
  induction m with
  | nil => simp [clearFramebuffer]
  | cons c m ih =>
    by_cases hc : 0xF00 ≤ c.1 ∧ c.1 < 0x1000
    · have he : clearFramebuffer (c :: m) = clearFramebuffer m := by
        simp [clearFramebuffer, Config.fbBase, Config.fbSize, hc.1, hc.2]
      rw [he, ih]
      by_cases h : 0xF00 ≤ a ∧ a ≤ 0xFFF
      · rw [if_pos h, if_pos h]
      · rw [if_neg h, if_neg h, Memory.read_cons_ne m (by omega)]
    · have he : clearFramebuffer (c :: m) = c :: clearFramebuffer m := by
        simp only [clearFramebuffer, Config.fbBase, Config.fbSize]
        exact List.filter_cons_of_pos (by simp; omega)
      rw [he]
      by_cases h : c.1 = a
      · rw [Memory.read_cons_eq _ h, Memory.read_cons_eq _ h, if_neg (by omega)]
      · rw [Memory.read_cons_ne _ h, Memory.read_cons_ne _ h, ih]

theorem wf_clearFramebuffer {m : Memory} (h : m.wf) : (clearFramebuffer m).wf := Memory.wf_filter _ h

theorem writeAll_blank (m : Memory) (a n : Nat) :
    m.writeAll a (List.replicate n 0#8) = m.filter (fun c => !(decide (a ≤ c.1) && decide (c.1 < a + n))) := by
  induction n generalizing m a with
  | zero =>
    rw [List.replicate_zero, Memory.writeAll, eq_comm, List.filter_eq_self]
    intro c _; simp; omega
  | succ n ih =>
    rw [List.replicate_succ, Memory.writeAll, ih, show m.write a 0#8 = m.erase a from rfl, Memory.erase_eq_filter, List.filter_filter]
    congr 1; funext c
    by_cases h1 : c.1 = a
    · simp [h1]
    · by_cases h2 : a ≤ c.1
      · have h3 : a + 1 ≤ c.1 := by omega
        simp [h1, h2, h3]; omega
      · have h3 : ¬a + 1 ≤ c.1 := by omega
        simp [h1, h2, h3]

/-- `clearFramebuffer` is the spec's loop: 0 written to each of the 256 addresses in turn (R121). -/
theorem clearFramebuffer_eq_writeAll (m : Memory) :
    clearFramebuffer m = m.writeAll Config.fbBase (List.replicate Config.fbSize 0#8) := by
  rw [writeAll_blank]; rfl

/-! ## One pixel -/

theorem onScreen_iff (px py : Nat) : onScreen px py = true ↔ px < 64 ∧ py < 32 := by
  simp [onScreen, Config.dispW, Config.dispH]

theorem Canvas.toggle_off {c : Canvas} {px py : Nat} (h : ¬(px < 64 ∧ py < 32)) : c.toggle px py = c := by
  rw [Canvas.toggle, if_neg (fun h' => h ((onScreen_iff px py).1 h'))]

theorem Canvas.toggle_on {c : Canvas} {px py : Nat} (h : px < 64 ∧ py < 32) :
    c.toggle px py = ⟨c.mem.write (fbAddr px py) (c.mem.read (fbAddr px py) ^^^ fbMask px py),
      c.collision || pixel c.mem px py⟩ := by
  rw [Canvas.toggle, if_pos ((onScreen_iff px py).2 h)]

/-- A toggle flips its own pixel and no other. -/
theorem Canvas.pixel_toggle (c : Canvas) (px py : Nat) {qx qy : Nat} (hx : qx < 64) (hy : qy < 32) :
    pixel (c.toggle px py).mem qx qy = (pixel c.mem qx qy ^^ decide (qx = px ∧ qy = py)) := by
  by_cases h : px < 64 ∧ py < 32
  · rw [Canvas.toggle_on h, pixel_eq _ qx qy, pixel_eq c.mem qx qy, Memory.read_write, fbAddr_eq, fbMask_eq]
    by_cases ha : 0xF00 + 8 * qy + qx / 8 = 0xF00 + 8 * py + px / 8
    · rw [if_pos ha, BitVec.getLsbD_xor, BitVec.getLsbD_twoPow, ← ha]
      congr 1
      have : (decide (7 - px % 8 < 8)) = true := by simp; omega
      rw [this, Bool.true_and, decide_eq_decide]
      omega
    · rw [if_neg ha]
      have : ¬(qx = px ∧ qy = py) := by omega
      simp [this]
  · rw [Canvas.toggle_off h]
    have : ¬(qx = px ∧ qy = py) := by omega
    simp [this]

theorem Canvas.read_toggle_outside (c : Canvas) (px py : Nat) {a : Nat} (ha : a < 0xF00 ∨ 0xFFF < a) :
    (c.toggle px py).mem.read a = c.mem.read a := by
  by_cases h : px < 64 ∧ py < 32
  · have := fbAddr_range h.1 h.2
    rw [Canvas.toggle_on h, Memory.read_write_ne _ _ (by omega)]
  · rw [Canvas.toggle_off h]

theorem Canvas.wf_toggle {c : Canvas} (px py : Nat) (hw : c.mem.wf) : (c.toggle px py).mem.wf := by
  by_cases h : px < 64 ∧ py < 32
  · have := fbAddr_range h.1 h.2
    rw [Canvas.toggle_on h]; exact Memory.wf_write _ hw (by simp only [Config.memSize]; omega)
  · rwa [Canvas.toggle_off h]

theorem Canvas.collision_toggle (c : Canvas) (px py : Nat) :
    (c.toggle px py).collision = true ↔ c.collision = true ∨ (px < 64 ∧ py < 32 ∧ pixel c.mem px py = true) := by
  by_cases h : px < 64 ∧ py < 32
  · rw [Canvas.toggle_on h]; simp [h.1, h.2]
  · rw [Canvas.toggle_off h]; tauto

/-! ## One row -/

/-- Whether the first `k` columns of a row's byte have a 1 bit at a position. -/
def rowCovers (vx py : Nat) (b : Byte) (k qx qy : Nat) : Bool :=
  decide (qy = py ∧ vx ≤ qx ∧ qx < vx + k) && b.getLsbD (7 - (qx - vx))

theorem rowCovers_eq_false {vx py : Nat} (b : Byte) {k qx qy : Nat} (h : ¬(qy = py ∧ vx ≤ qx ∧ qx < vx + k)) :
    rowCovers vx py b k qx qy = false := by
  rw [rowCovers, decide_eq_false h, Bool.false_and]

theorem rowCovers_zero (vx py : Nat) (b : Byte) (qx qy : Nat) : rowCovers vx py b 0 qx qy = false := by
  exact rowCovers_eq_false b (by omega)

theorem rowCovers_succ (vx py : Nat) (b : Byte) (k qx qy : Nat) :
    rowCovers vx py b (k + 1) qx qy = (rowCovers vx py b k qx qy ^^ (spriteBit b k && decide (qx = vx + k ∧ qy = py))) := by
  by_cases h : qx = vx + k
  · subst h
    by_cases hy : qy = py <;> simp [rowCovers, spriteBit, hy]
  · have : (qy = py ∧ vx ≤ qx ∧ qx < vx + (k + 1)) ↔ (qy = py ∧ vx ≤ qx ∧ qx < vx + k) := by omega
    simp [rowCovers, h, this]

theorem rowCovers_last (vx py : Nat) (b : Byte) (k qx qy : Nat) :
    rowCovers vx py b (k + 1) qx qy = true ↔
      rowCovers vx py b k qx qy = true ∨ (spriteBit b k = true ∧ qx = vx + k ∧ qy = py) := by
  rw [rowCovers_succ]
  by_cases h : qx = vx + k
  · have : rowCovers vx py b k qx qy = false := rowCovers_eq_false b (by omega)
    simp [this]
  · simp [h]

/-- The first `k` columns of a row. -/
def Canvas.drawCols (c : Canvas) (vx py : Nat) (b : Byte) (k : Nat) : Canvas :=
  (List.range k).foldl (fun c col => if spriteBit b col then c.toggle (vx + col) py else c) c

theorem Canvas.drawCols_succ (c : Canvas) (vx py : Nat) (b : Byte) (k : Nat) :
    c.drawCols vx py b (k + 1) =
      if spriteBit b k then (c.drawCols vx py b k).toggle (vx + k) py else c.drawCols vx py b k := by
  simp [Canvas.drawCols, List.range_succ]

theorem Canvas.pixel_drawCols (c : Canvas) (vx py : Nat) (b : Byte) (k : Nat) {qx qy : Nat} (hx : qx < 64) (hy : qy < 32) :
    pixel (c.drawCols vx py b k).mem qx qy = (pixel c.mem qx qy ^^ rowCovers vx py b k qx qy) := by
  induction k with
  | zero => simp [Canvas.drawCols, rowCovers_zero]
  | succ k ih =>
    rw [Canvas.drawCols_succ, rowCovers_succ]
    cases hb : spriteBit b k
    · simpa using ih
    · simp only [if_true, Bool.true_and]
      rw [Canvas.pixel_toggle _ _ _ hx hy, ih, Bool.xor_assoc]

theorem Canvas.read_drawCols_outside (c : Canvas) (vx py : Nat) (b : Byte) (k : Nat) {a : Nat}
    (ha : a < 0xF00 ∨ 0xFFF < a) : (c.drawCols vx py b k).mem.read a = c.mem.read a := by
  induction k with
  | zero => rfl
  | succ k ih =>
    rw [Canvas.drawCols_succ]
    cases hb : spriteBit b k
    · simpa using ih
    · simp only [if_true]; rw [Canvas.read_toggle_outside _ _ _ ha, ih]

theorem Canvas.wf_drawCols {c : Canvas} (vx py : Nat) (b : Byte) (k : Nat) (hw : c.mem.wf) :
    (c.drawCols vx py b k).mem.wf := by
  induction k with
  | zero => exact hw
  | succ k ih =>
    rw [Canvas.drawCols_succ]
    cases hb : spriteBit b k
    · simpa using ih
    · simpa using Canvas.wf_toggle _ _ ih

/-- A row collides when one of its 1 bits lies on a pixel that was on before the row. -/
theorem Canvas.collision_drawCols (c : Canvas) (vx py : Nat) (b : Byte) (k : Nat) :
    (c.drawCols vx py b k).collision = true ↔ c.collision = true ∨
      ∃ qx qy, qx < 64 ∧ qy < 32 ∧ rowCovers vx py b k qx qy = true ∧ pixel c.mem qx qy = true := by
  induction k with
  | zero => simp [Canvas.drawCols, rowCovers_zero]
  | succ k ih =>
    rw [Canvas.drawCols_succ]
    simp only [rowCovers_last]
    cases hb : spriteBit b k
    · simpa using ih
    · simp only [if_true, true_and]
      rw [Canvas.collision_toggle, ih]
      have hp : vx + k < 64 → py < 32 →
          pixel (c.drawCols vx py b k).mem (vx + k) py = pixel c.mem (vx + k) py := by
        intro hx hy
        rw [Canvas.pixel_drawCols _ _ _ _ _ hx hy]
        rw [rowCovers_eq_false b (by omega), Bool.xor_false]
      constructor
      · rintro ((h | ⟨qx, qy, hx, hy, h, hq⟩) | ⟨hx, hy, hq⟩)
        · exact .inl h
        · exact .inr ⟨qx, qy, hx, hy, .inl h, hq⟩
        · exact .inr ⟨_, _, hx, hy, .inr ⟨rfl, rfl⟩, by rwa [hp hx hy] at hq⟩
      · rintro (h | ⟨qx, qy, hx, hy, h | ⟨rfl, rfl⟩, hq⟩)
        · exact .inl (.inl h)
        · exact .inl (.inr ⟨qx, qy, hx, hy, h, hq⟩)
        · exact .inr ⟨hx, hy, by rwa [hp hx hy]⟩

theorem Canvas.drawRow_eq (c : Canvas) (vx py : Nat) (b : Byte) : c.drawRow vx py b = c.drawCols vx py b 8 := rfl

/-! ## The whole sprite -/

/-- The rows of a sprite whose bytes can all be read. -/
def Canvas.drawSprite (vx : Nat) : Nat → Canvas → Nat → Nat → Canvas
  | 0, c, _, _ => c
  | n + 1, c, addr, py => Canvas.drawSprite vx n (c.drawRow vx py (c.mem.read addr)) (addr + 1) (py + 1)

theorem Canvas.drawRows_ok (vx : Nat) {n : Nat} (c : Canvas) {addr : Nat} (py : Nat) (h : n = 0 ∨ addr + n ≤ 0x1000) :
    Canvas.drawRows vx n c addr py = .ok (Canvas.drawSprite vx n c addr py) := by
  induction n generalizing c addr py with
  | zero => rfl
  | succ n ih =>
    rw [Canvas.drawRows, memRead_ok c.mem (show addr ≤ 0xFFF by omega)]
    exact ih _ _ (by omega)

/-- A sprite whose bytes run out of memory raises, wherever it lies on the screen (R122, decision D15). -/
theorem Canvas.drawRows_error (vx : Nat) {n : Nat} (c : Canvas) {addr : Nat} (py : Nat) (hn : 0 < n)
    (h : 0x1000 < addr + n) : Canvas.drawRows vx n c addr py = .error (.outOfRange (max addr 0x1000)) := by
  induction n generalizing c addr py with
  | zero => simp at hn
  | succ n ih =>
    by_cases ha : addr ≤ 0xFFF
    · rw [Canvas.drawRows, memRead_ok c.mem ha]
      simp only
      rw [ih _ _ (by omega) (by omega), show max (addr + 1) 0x1000 = max addr 0x1000 by omega]
    · rw [Canvas.drawRows, memRead_error c.mem (show 0xFFF < addr by omega), show max addr 0x1000 = addr by omega]

/-- One row more, drawn last: how a sprite of `n + 1` rows follows from one of `n` rows, whatever its source overlaps. -/
theorem Canvas.drawSprite_succ_last (vx n : Nat) (c : Canvas) (addr py : Nat) :
    Canvas.drawSprite vx (n + 1) c addr py =
      (Canvas.drawSprite vx n c addr py).drawRow vx (py + n) ((Canvas.drawSprite vx n c addr py).mem.read (addr + n)) := by
  induction n generalizing c addr py with
  | zero => rfl
  | succ n ih =>
    rw [Canvas.drawSprite, ih]
    simp only [Canvas.drawSprite, Nat.add_assoc, Nat.add_comm 1 n]

theorem Canvas.read_drawSprite_outside (vx n : Nat) (c : Canvas) (addr py : Nat) {a : Nat} (ha : a < 0xF00 ∨ 0xFFF < a) :
    (Canvas.drawSprite vx n c addr py).mem.read a = c.mem.read a := by
  induction n generalizing c addr py with
  | zero => rfl
  | succ n ih => rw [Canvas.drawSprite, ih, Canvas.drawRow_eq, Canvas.read_drawCols_outside _ _ _ _ _ ha]

theorem Canvas.wf_drawSprite (vx n : Nat) {c : Canvas} (addr py : Nat) (hw : c.mem.wf) :
    (Canvas.drawSprite vx n c addr py).mem.wf := by
  induction n generalizing c addr py with
  | zero => exact hw
  | succ n ih => rw [Canvas.drawSprite]; exact ih _ _ (by rw [Canvas.drawRow_eq]; exact Canvas.wf_drawCols _ _ _ _ hw)

theorem spriteCovers_eq_false (m : Memory) (addr : Nat) {vx vy n qx qy : Nat}
    (h : ¬(vy ≤ qy ∧ qy < vy + n ∧ vx ≤ qx ∧ qx < vx + 8)) : spriteCovers m addr vx vy n qx qy = false := by
  rw [spriteCovers, decide_eq_false h, Bool.false_and]

theorem spriteCovers_succ (m : Memory) (addr vx vy n qx qy : Nat) :
    spriteCovers m addr vx vy (n + 1) qx qy =
      (spriteCovers m addr vx vy n qx qy ^^ rowCovers vx (vy + n) (m.read (addr + n)) 8 qx qy) := by
  by_cases h : qy = vy + n
  · subst h
    simp [spriteCovers, rowCovers]
  · have : (vy ≤ qy ∧ qy < vy + (n + 1) ∧ vx ≤ qx ∧ qx < vx + 8) ↔ (vy ≤ qy ∧ qy < vy + n ∧ vx ≤ qx ∧ qx < vx + 8) := by omega
    simp [spriteCovers, rowCovers, h, this]

/-- A sprite whose source lies outside the framebuffer flips exactly the pixels its 1 bits cover. -/
theorem Canvas.pixel_drawSprite (vx n : Nat) (c : Canvas) {addr : Nat} (vy : Nat) (hn : addr + n ≤ 0xF00) {qx qy : Nat}
    (hx : qx < 64) (hy : qy < 32) :
    pixel (Canvas.drawSprite vx n c addr vy).mem qx qy = (pixel c.mem qx qy ^^ spriteCovers c.mem addr vx vy n qx qy) := by
  induction n with
  | zero =>
    rw [spriteCovers_eq_false _ _ (by omega), Bool.xor_false]; rfl
  | succ n ih =>
    rw [Canvas.drawSprite_succ_last, Canvas.drawRow_eq, Canvas.pixel_drawCols _ _ _ _ _ hx hy, ih (by omega),
      Canvas.read_drawSprite_outside _ _ _ _ _ (by omega), spriteCovers_succ, Bool.xor_assoc]

/-- Such a sprite collides exactly when one of its 1 bits lies on a pixel that was on. -/
theorem Canvas.collision_drawSprite (vx n : Nat) (c : Canvas) {addr : Nat} (vy : Nat) (hn : addr + n ≤ 0xF00) :
    (Canvas.drawSprite vx n c addr vy).collision = true ↔ c.collision = true ∨
      ∃ qx qy, qx < 64 ∧ qy < 32 ∧ spriteCovers c.mem addr vx vy n qx qy = true ∧ pixel c.mem qx qy = true := by
  induction n with
  | zero =>
    have : ∀ qx qy, spriteCovers c.mem addr vx vy 0 qx qy = false := fun qx qy => spriteCovers_eq_false _ _ (by omega)
    simp [Canvas.drawSprite, this]
  | succ n ih =>
    rw [Canvas.drawSprite_succ_last, Canvas.drawRow_eq, Canvas.collision_drawCols, ih (by omega),
      Canvas.read_drawSprite_outside _ _ _ _ _ (by omega), or_assoc]
    refine or_congr_right ?_
    rw [← exists_or]
    refine exists_congr fun qx => ?_
    rw [← exists_or]
    refine exists_congr fun qy => ?_
    by_cases hx : qx < 64
    · by_cases hy : qy < 32
      · rw [Canvas.pixel_drawSprite _ _ _ _ (by omega) hx hy, spriteCovers_succ]
        by_cases h : qy = vy + n
        · have : spriteCovers c.mem addr vx vy n qx qy = false := spriteCovers_eq_false _ _ (by omega)
          simp [this, hx, hy]
        · have : rowCovers vx (vy + n) (c.mem.read (addr + n)) 8 qx qy = false := by simp [rowCovers, h]
          simp [this, hx, hy]
      · simp [hy]
    · simp [hx]

/-- A sprite of one row covers what its byte's 1 bits cover. -/
theorem spriteCovers_one (m : Memory) (a vx vy px py : Nat) : spriteCovers m a vx vy 1 px py = rowCovers vx vy (m.read a) 8 px py := by
  have := spriteCovers_succ m a vx vy 0 px py
  rw [spriteCovers_eq_false (vx := vx) (vy := vy) (n := 0) (qx := px) (qy := py) m a (by omega)] at this
  simpa using this

/-- Which pixels a sprite covers depends on its own bytes only. -/
theorem spriteCovers_congr {m k : Memory} {a vx vy n qx qy : Nat} (h : ∀ j < n, k.read (a + j) = m.read (a + j)) :
    spriteCovers k a vx vy n qx qy = spriteCovers m a vx vy n qx qy := by
  by_cases hc : vy ≤ qy ∧ qy < vy + n ∧ vx ≤ qx ∧ qx < vx + 8
  · rw [spriteCovers, spriteCovers, h (qy - vy) (by omega)]
  · rw [spriteCovers_eq_false _ _ hc, spriteCovers_eq_false _ _ hc]

/-- A flag is 1 or 0, as what it reports holds or not. -/
theorem flagByte_cases (b : Bool) : (flagByte b = 1 ∧ b = true) ∨ (flagByte b = 0 ∧ b = false) := by cases b <;> simp [flagByte]

end Sys2Proof.Machine
end

