-- ==== Sys2Proof/Laws/State.lean ====
section
/-!
SUPPORT. What each named update of the state does to each field, true by rfl, so that no proof unfolds a record update.
-/
namespace Sys2Proof.Machine

variable (s : State)


@[simp] theorem State.setV_V (x : Reg) (v : Byte) : (s.setV x v).V = s.V.set x v := rfl
@[simp] theorem State.setV_I (x : Reg) (v : Byte) : (s.setV x v).I = s.I := rfl
@[simp] theorem State.setV_pc (x : Reg) (v : Byte) : (s.setV x v).pc = s.pc := rfl
@[simp] theorem State.setV_stack (x : Reg) (v : Byte) : (s.setV x v).stack = s.stack := rfl
@[simp] theorem State.setV_sp (x : Reg) (v : Byte) : (s.setV x v).sp = s.sp := rfl
@[simp] theorem State.setV_DT (x : Reg) (v : Byte) : (s.setV x v).DT = s.DT := rfl
@[simp] theorem State.setV_ST (x : Reg) (v : Byte) : (s.setV x v).ST = s.ST := rfl
@[simp] theorem State.setV_keys (x : Reg) (v : Byte) : (s.setV x v).keys = s.keys := rfl
@[simp] theorem State.setV_status (x : Reg) (v : Byte) : (s.setV x v).status = s.status := rfl
@[simp] theorem State.setV_cause (x : Reg) (v : Byte) : (s.setV x v).cause = s.cause := rfl
@[simp] theorem State.setV_mem (x : Reg) (v : Byte) : (s.setV x v).mem = s.mem := rfl
@[simp] theorem State.setV_advisory (x : Reg) (v : Byte) : (s.setV x v).advisory = s.advisory := rfl
@[simp] theorem State.setV_initialising (x : Reg) (v : Byte) : (s.setV x v).initialising = s.initialising := rfl
@[simp] theorem State.setV_freeIndex (x : Reg) (v : Byte) : (s.setV x v).freeIndex = s.freeIndex := rfl

@[simp] theorem State.setI_V (v : Word) : (s.setI v).V = s.V := rfl
@[simp] theorem State.setI_I (v : Word) : (s.setI v).I = v := rfl
@[simp] theorem State.setI_pc (v : Word) : (s.setI v).pc = s.pc := rfl
@[simp] theorem State.setI_stack (v : Word) : (s.setI v).stack = s.stack := rfl
@[simp] theorem State.setI_sp (v : Word) : (s.setI v).sp = s.sp := rfl
@[simp] theorem State.setI_DT (v : Word) : (s.setI v).DT = s.DT := rfl
@[simp] theorem State.setI_ST (v : Word) : (s.setI v).ST = s.ST := rfl
@[simp] theorem State.setI_keys (v : Word) : (s.setI v).keys = s.keys := rfl
@[simp] theorem State.setI_status (v : Word) : (s.setI v).status = s.status := rfl
@[simp] theorem State.setI_cause (v : Word) : (s.setI v).cause = s.cause := rfl
@[simp] theorem State.setI_mem (v : Word) : (s.setI v).mem = s.mem := rfl
@[simp] theorem State.setI_advisory (v : Word) : (s.setI v).advisory = s.advisory := rfl
@[simp] theorem State.setI_initialising (v : Word) : (s.setI v).initialising = s.initialising := rfl
@[simp] theorem State.setI_freeIndex (v : Word) : (s.setI v).freeIndex = s.freeIndex := rfl

@[simp] theorem State.setPc_V (v : Word) : (s.setPc v).V = s.V := rfl
@[simp] theorem State.setPc_I (v : Word) : (s.setPc v).I = s.I := rfl
@[simp] theorem State.setPc_pc (v : Word) : (s.setPc v).pc = v := rfl
@[simp] theorem State.setPc_stack (v : Word) : (s.setPc v).stack = s.stack := rfl
@[simp] theorem State.setPc_sp (v : Word) : (s.setPc v).sp = s.sp := rfl
@[simp] theorem State.setPc_DT (v : Word) : (s.setPc v).DT = s.DT := rfl
@[simp] theorem State.setPc_ST (v : Word) : (s.setPc v).ST = s.ST := rfl
@[simp] theorem State.setPc_keys (v : Word) : (s.setPc v).keys = s.keys := rfl
@[simp] theorem State.setPc_status (v : Word) : (s.setPc v).status = s.status := rfl
@[simp] theorem State.setPc_cause (v : Word) : (s.setPc v).cause = s.cause := rfl
@[simp] theorem State.setPc_mem (v : Word) : (s.setPc v).mem = s.mem := rfl
@[simp] theorem State.setPc_advisory (v : Word) : (s.setPc v).advisory = s.advisory := rfl
@[simp] theorem State.setPc_initialising (v : Word) : (s.setPc v).initialising = s.initialising := rfl
@[simp] theorem State.setPc_freeIndex (v : Word) : (s.setPc v).freeIndex = s.freeIndex := rfl

@[simp] theorem State.setDT_V (v : Byte) : (s.setDT v).V = s.V := rfl
@[simp] theorem State.setDT_I (v : Byte) : (s.setDT v).I = s.I := rfl
@[simp] theorem State.setDT_pc (v : Byte) : (s.setDT v).pc = s.pc := rfl
@[simp] theorem State.setDT_stack (v : Byte) : (s.setDT v).stack = s.stack := rfl
@[simp] theorem State.setDT_sp (v : Byte) : (s.setDT v).sp = s.sp := rfl
@[simp] theorem State.setDT_DT (v : Byte) : (s.setDT v).DT = v := rfl
@[simp] theorem State.setDT_ST (v : Byte) : (s.setDT v).ST = s.ST := rfl
@[simp] theorem State.setDT_keys (v : Byte) : (s.setDT v).keys = s.keys := rfl
@[simp] theorem State.setDT_status (v : Byte) : (s.setDT v).status = s.status := rfl
@[simp] theorem State.setDT_cause (v : Byte) : (s.setDT v).cause = s.cause := rfl
@[simp] theorem State.setDT_mem (v : Byte) : (s.setDT v).mem = s.mem := rfl
@[simp] theorem State.setDT_advisory (v : Byte) : (s.setDT v).advisory = s.advisory := rfl
@[simp] theorem State.setDT_initialising (v : Byte) : (s.setDT v).initialising = s.initialising := rfl
@[simp] theorem State.setDT_freeIndex (v : Byte) : (s.setDT v).freeIndex = s.freeIndex := rfl

@[simp] theorem State.setST_V (v : Byte) : (s.setST v).V = s.V := rfl
@[simp] theorem State.setST_I (v : Byte) : (s.setST v).I = s.I := rfl
@[simp] theorem State.setST_pc (v : Byte) : (s.setST v).pc = s.pc := rfl
@[simp] theorem State.setST_stack (v : Byte) : (s.setST v).stack = s.stack := rfl
@[simp] theorem State.setST_sp (v : Byte) : (s.setST v).sp = s.sp := rfl
@[simp] theorem State.setST_DT (v : Byte) : (s.setST v).DT = s.DT := rfl
@[simp] theorem State.setST_ST (v : Byte) : (s.setST v).ST = v := rfl
@[simp] theorem State.setST_keys (v : Byte) : (s.setST v).keys = s.keys := rfl
@[simp] theorem State.setST_status (v : Byte) : (s.setST v).status = s.status := rfl
@[simp] theorem State.setST_cause (v : Byte) : (s.setST v).cause = s.cause := rfl
@[simp] theorem State.setST_mem (v : Byte) : (s.setST v).mem = s.mem := rfl
@[simp] theorem State.setST_advisory (v : Byte) : (s.setST v).advisory = s.advisory := rfl
@[simp] theorem State.setST_initialising (v : Byte) : (s.setST v).initialising = s.initialising := rfl
@[simp] theorem State.setST_freeIndex (v : Byte) : (s.setST v).freeIndex = s.freeIndex := rfl

@[simp] theorem State.setKeys_V (k : Vector Bool 16) : (s.setKeys k).V = s.V := rfl
@[simp] theorem State.setKeys_I (k : Vector Bool 16) : (s.setKeys k).I = s.I := rfl
@[simp] theorem State.setKeys_pc (k : Vector Bool 16) : (s.setKeys k).pc = s.pc := rfl
@[simp] theorem State.setKeys_stack (k : Vector Bool 16) : (s.setKeys k).stack = s.stack := rfl
@[simp] theorem State.setKeys_sp (k : Vector Bool 16) : (s.setKeys k).sp = s.sp := rfl
@[simp] theorem State.setKeys_DT (k : Vector Bool 16) : (s.setKeys k).DT = s.DT := rfl
@[simp] theorem State.setKeys_ST (k : Vector Bool 16) : (s.setKeys k).ST = s.ST := rfl
@[simp] theorem State.setKeys_keys (k : Vector Bool 16) : (s.setKeys k).keys = k := rfl
@[simp] theorem State.setKeys_status (k : Vector Bool 16) : (s.setKeys k).status = s.status := rfl
@[simp] theorem State.setKeys_cause (k : Vector Bool 16) : (s.setKeys k).cause = s.cause := rfl
@[simp] theorem State.setKeys_mem (k : Vector Bool 16) : (s.setKeys k).mem = s.mem := rfl
@[simp] theorem State.setKeys_advisory (k : Vector Bool 16) : (s.setKeys k).advisory = s.advisory := rfl
@[simp] theorem State.setKeys_initialising (k : Vector Bool 16) : (s.setKeys k).initialising = s.initialising := rfl
@[simp] theorem State.setKeys_freeIndex (k : Vector Bool 16) : (s.setKeys k).freeIndex = s.freeIndex := rfl

@[simp] theorem State.setMem_V (m : Memory) : (s.setMem m).V = s.V := rfl
@[simp] theorem State.setMem_I (m : Memory) : (s.setMem m).I = s.I := rfl
@[simp] theorem State.setMem_pc (m : Memory) : (s.setMem m).pc = s.pc := rfl
@[simp] theorem State.setMem_stack (m : Memory) : (s.setMem m).stack = s.stack := rfl
@[simp] theorem State.setMem_sp (m : Memory) : (s.setMem m).sp = s.sp := rfl
@[simp] theorem State.setMem_DT (m : Memory) : (s.setMem m).DT = s.DT := rfl
@[simp] theorem State.setMem_ST (m : Memory) : (s.setMem m).ST = s.ST := rfl
@[simp] theorem State.setMem_keys (m : Memory) : (s.setMem m).keys = s.keys := rfl
@[simp] theorem State.setMem_status (m : Memory) : (s.setMem m).status = s.status := rfl
@[simp] theorem State.setMem_cause (m : Memory) : (s.setMem m).cause = s.cause := rfl
@[simp] theorem State.setMem_mem (m : Memory) : (s.setMem m).mem = m := rfl
@[simp] theorem State.setMem_advisory (m : Memory) : (s.setMem m).advisory = s.advisory := rfl
@[simp] theorem State.setMem_initialising (m : Memory) : (s.setMem m).initialising = s.initialising := rfl
@[simp] theorem State.setMem_freeIndex (m : Memory) : (s.setMem m).freeIndex = s.freeIndex := rfl

@[simp] theorem State.halt_V : (s.halt).V = s.V := rfl
@[simp] theorem State.halt_I : (s.halt).I = s.I := rfl
@[simp] theorem State.halt_pc : (s.halt).pc = s.pc := rfl
@[simp] theorem State.halt_stack : (s.halt).stack = s.stack := rfl
@[simp] theorem State.halt_sp : (s.halt).sp = s.sp := rfl
@[simp] theorem State.halt_DT : (s.halt).DT = s.DT := rfl
@[simp] theorem State.halt_ST : (s.halt).ST = s.ST := rfl
@[simp] theorem State.halt_keys : (s.halt).keys = s.keys := rfl
@[simp] theorem State.halt_status : (s.halt).status = .halted := rfl
@[simp] theorem State.halt_cause : (s.halt).cause = s.cause := rfl
@[simp] theorem State.halt_mem : (s.halt).mem = s.mem := rfl
@[simp] theorem State.halt_advisory : (s.halt).advisory = s.advisory := rfl
@[simp] theorem State.halt_initialising : (s.halt).initialising = s.initialising := rfl
@[simp] theorem State.halt_freeIndex : (s.halt).freeIndex = s.freeIndex := rfl

@[simp] theorem State.skip_V : (s.skip).V = s.V := rfl
@[simp] theorem State.skip_I : (s.skip).I = s.I := rfl
@[simp] theorem State.skip_pc : (s.skip).pc = s.pc + 2#16 := rfl
@[simp] theorem State.skip_stack : (s.skip).stack = s.stack := rfl
@[simp] theorem State.skip_sp : (s.skip).sp = s.sp := rfl
@[simp] theorem State.skip_DT : (s.skip).DT = s.DT := rfl
@[simp] theorem State.skip_ST : (s.skip).ST = s.ST := rfl
@[simp] theorem State.skip_keys : (s.skip).keys = s.keys := rfl
@[simp] theorem State.skip_status : (s.skip).status = s.status := rfl
@[simp] theorem State.skip_cause : (s.skip).cause = s.cause := rfl
@[simp] theorem State.skip_mem : (s.skip).mem = s.mem := rfl
@[simp] theorem State.skip_advisory : (s.skip).advisory = s.advisory := rfl
@[simp] theorem State.skip_initialising : (s.skip).initialising = s.initialising := rfl
@[simp] theorem State.skip_freeIndex : (s.skip).freeIndex = s.freeIndex := rfl

@[simp] theorem State.setRegs_V (bs : List Byte) : (s.setRegs bs).V = Vector.ofFn (fun k => bs.getD k.val (s.V.get k)) := rfl
@[simp] theorem State.setRegs_I (bs : List Byte) : (s.setRegs bs).I = s.I := rfl
@[simp] theorem State.setRegs_pc (bs : List Byte) : (s.setRegs bs).pc = s.pc := rfl
@[simp] theorem State.setRegs_stack (bs : List Byte) : (s.setRegs bs).stack = s.stack := rfl
@[simp] theorem State.setRegs_sp (bs : List Byte) : (s.setRegs bs).sp = s.sp := rfl
@[simp] theorem State.setRegs_DT (bs : List Byte) : (s.setRegs bs).DT = s.DT := rfl
@[simp] theorem State.setRegs_ST (bs : List Byte) : (s.setRegs bs).ST = s.ST := rfl
@[simp] theorem State.setRegs_keys (bs : List Byte) : (s.setRegs bs).keys = s.keys := rfl
@[simp] theorem State.setRegs_status (bs : List Byte) : (s.setRegs bs).status = s.status := rfl
@[simp] theorem State.setRegs_cause (bs : List Byte) : (s.setRegs bs).cause = s.cause := rfl
@[simp] theorem State.setRegs_mem (bs : List Byte) : (s.setRegs bs).mem = s.mem := rfl
@[simp] theorem State.setRegs_advisory (bs : List Byte) : (s.setRegs bs).advisory = s.advisory := rfl
@[simp] theorem State.setRegs_initialising (bs : List Byte) : (s.setRegs bs).initialising = s.initialising := rfl
@[simp] theorem State.setRegs_freeIndex (bs : List Byte) : (s.setRegs bs).freeIndex = s.freeIndex := rfl

@[simp] theorem State.setResultAndFlag_V (x : Reg) (r f : Byte) : (s.setResultAndFlag x r f).V = (s.V.set x r).set Reg.vF f := rfl
@[simp] theorem State.setResultAndFlag_I (x : Reg) (r f : Byte) : (s.setResultAndFlag x r f).I = s.I := rfl
@[simp] theorem State.setResultAndFlag_pc (x : Reg) (r f : Byte) : (s.setResultAndFlag x r f).pc = s.pc := rfl
@[simp] theorem State.setResultAndFlag_stack (x : Reg) (r f : Byte) : (s.setResultAndFlag x r f).stack = s.stack := rfl
@[simp] theorem State.setResultAndFlag_sp (x : Reg) (r f : Byte) : (s.setResultAndFlag x r f).sp = s.sp := rfl
@[simp] theorem State.setResultAndFlag_DT (x : Reg) (r f : Byte) : (s.setResultAndFlag x r f).DT = s.DT := rfl
@[simp] theorem State.setResultAndFlag_ST (x : Reg) (r f : Byte) : (s.setResultAndFlag x r f).ST = s.ST := rfl
@[simp] theorem State.setResultAndFlag_keys (x : Reg) (r f : Byte) : (s.setResultAndFlag x r f).keys = s.keys := rfl
@[simp] theorem State.setResultAndFlag_status (x : Reg) (r f : Byte) : (s.setResultAndFlag x r f).status = s.status := rfl
@[simp] theorem State.setResultAndFlag_cause (x : Reg) (r f : Byte) : (s.setResultAndFlag x r f).cause = s.cause := rfl
@[simp] theorem State.setResultAndFlag_mem (x : Reg) (r f : Byte) : (s.setResultAndFlag x r f).mem = s.mem := rfl
@[simp] theorem State.setResultAndFlag_advisory (x : Reg) (r f : Byte) : (s.setResultAndFlag x r f).advisory = s.advisory := rfl
@[simp] theorem State.setResultAndFlag_initialising (x : Reg) (r f : Byte) : (s.setResultAndFlag x r f).initialising = s.initialising := rfl
@[simp] theorem State.setResultAndFlag_freeIndex (x : Reg) (r f : Byte) : (s.setResultAndFlag x r f).freeIndex = s.freeIndex := rfl

@[simp] theorem advance_V : (advance s).V = s.V := rfl
@[simp] theorem advance_I : (advance s).I = s.I := rfl
@[simp] theorem advance_pc : (advance s).pc = s.pc + 2#16 := rfl
@[simp] theorem advance_stack : (advance s).stack = s.stack := rfl
@[simp] theorem advance_sp : (advance s).sp = s.sp := rfl
@[simp] theorem advance_DT : (advance s).DT = s.DT := rfl
@[simp] theorem advance_ST : (advance s).ST = s.ST := rfl
@[simp] theorem advance_keys : (advance s).keys = s.keys := rfl
@[simp] theorem advance_status : (advance s).status = s.status := rfl
@[simp] theorem advance_cause : (advance s).cause = s.cause := rfl
@[simp] theorem advance_mem : (advance s).mem = s.mem := rfl
@[simp] theorem advance_advisory : (advance s).advisory = s.advisory := rfl
@[simp] theorem advance_initialising : (advance s).initialising = false := rfl
@[simp] theorem advance_freeIndex : (advance s).freeIndex = s.freeIndex := rfl

@[simp] theorem State.drawRandom_V : (s.drawRandom.2).V = s.V := rfl
@[simp] theorem State.drawRandom_I : (s.drawRandom.2).I = s.I := rfl
@[simp] theorem State.drawRandom_pc : (s.drawRandom.2).pc = s.pc := rfl
@[simp] theorem State.drawRandom_stack : (s.drawRandom.2).stack = s.stack := rfl
@[simp] theorem State.drawRandom_sp : (s.drawRandom.2).sp = s.sp := rfl
@[simp] theorem State.drawRandom_DT : (s.drawRandom.2).DT = s.DT := rfl
@[simp] theorem State.drawRandom_ST : (s.drawRandom.2).ST = s.ST := rfl
@[simp] theorem State.drawRandom_keys : (s.drawRandom.2).keys = s.keys := rfl
@[simp] theorem State.drawRandom_status : (s.drawRandom.2).status = s.status := rfl
@[simp] theorem State.drawRandom_cause : (s.drawRandom.2).cause = s.cause := rfl
@[simp] theorem State.drawRandom_mem : (s.drawRandom.2).mem = s.mem := rfl
@[simp] theorem State.drawRandom_advisory : (s.drawRandom.2).advisory = s.advisory := rfl
@[simp] theorem State.drawRandom_initialising : (s.drawRandom.2).initialising = s.initialising := rfl
@[simp] theorem State.drawRandom_freeIndex : (s.drawRandom.2).freeIndex = s.freeIndex + 1 := rfl

@[simp] theorem State.unspecified_V : (s.unspecified).V = Config.unspecifiedV s.freeIndex := rfl
@[simp] theorem State.unspecified_I : (s.unspecified).I = Config.unspecifiedI s.freeIndex := rfl
@[simp] theorem State.unspecified_pc : (s.unspecified).pc = Config.unspecifiedPc s.freeIndex := rfl
@[simp] theorem State.unspecified_stack : (s.unspecified).stack = Config.unspecifiedStack s.freeIndex := rfl
@[simp] theorem State.unspecified_sp : (s.unspecified).sp = Config.unspecifiedSp s.freeIndex := rfl
@[simp] theorem State.unspecified_DT : (s.unspecified).DT = Config.unspecifiedDT s.freeIndex := rfl
@[simp] theorem State.unspecified_ST : (s.unspecified).ST = Config.unspecifiedST s.freeIndex := rfl
@[simp] theorem State.unspecified_keys : (s.unspecified).keys = Config.unspecifiedKeys s.freeIndex := rfl
@[simp] theorem State.unspecified_status : (s.unspecified).status = s.status := rfl
@[simp] theorem State.unspecified_cause : (s.unspecified).cause = s.cause := rfl
@[simp] theorem State.unspecified_mem : (s.unspecified).mem = Memory.ofCells (Config.unspecifiedCell s.freeIndex) := rfl
@[simp] theorem State.unspecified_advisory : (s.unspecified).advisory = s.advisory := rfl
@[simp] theorem State.unspecified_initialising : (s.unspecified).initialising = s.initialising := rfl
@[simp] theorem State.unspecified_freeIndex : (s.unspecified).freeIndex = s.freeIndex + 1 := rfl

@[simp] theorem State.takeFault_status (t : Trap) : (s.takeFault t).status = .faulted := rfl
@[simp] theorem State.takeFault_cause (t : Trap) : (s.takeFault t).cause = t.cause := rfl
@[simp] theorem State.takeFault_advisory (t : Trap) : (s.takeFault t).advisory = t.info := rfl
@[simp] theorem State.takeFault_initialising (t : Trap) : (s.takeFault t).initialising = false := rfl
@[simp] theorem State.takeFault_mem (t : Trap) :
    (s.takeFault t).mem = Memory.ofCells (Config.unspecifiedCell s.freeIndex) := rfl
@[simp] theorem State.takeFault_freeIndex (t : Trap) : (s.takeFault t).freeIndex = s.freeIndex + 1 := rfl

@[simp] theorem State.drawRandom_byte : s.drawRandom.1 = Config.randomByte s.freeIndex := rfl

/-- A taken fault depends on the state only through the counter of free values. -/
theorem State.takeFault_congr {s u : State} (t : Trap) (h : s.freeIndex = u.freeIndex) :
    s.takeFault t = u.takeFault t := by
  simp [State.takeFault, State.unspecified, h]

end Sys2Proof.Machine
end

