-- ==== Sys2Proof/Laws/Registers.lean ====
section
/-!
SUPPORT. What reading a register gives after each write of registers, and the stack's two operations.
-/
namespace Sys2Proof.Machine

theorem State.reg_setV (s : State) (x r : Reg) (v : Byte) : (s.setV x v).reg r = if r = x then v else s.reg r := by
  simp only [State.reg, State.setV, Vector.get_eq_getElem, Vector.getElem_set]
  by_cases h : r = x
  · simp [h]
  · simp [h, Fin.val_ne_of_ne (Ne.symm h)]

@[simp] theorem State.reg_setV_same (s : State) (x : Reg) (v : Byte) : (s.setV x v).reg x = v := by simp [State.reg_setV]

theorem State.reg_setV_ne (s : State) {x r : Reg} (v : Byte) (h : r ≠ x) : (s.setV x v).reg r = s.reg r := by
  simp [State.reg_setV, h]

/-- VF receives the flag, last; another destination the result; the other registers keep their value (R12). -/
theorem State.reg_setResultAndFlag (s : State) (x r : Reg) (result flag : Byte) :
    (s.setResultAndFlag x result flag).reg r = if r = .vF then flag else if r = x then result else s.reg r := by
  simp only [State.setResultAndFlag, State.reg_setV]

/-- The registers a list of bytes reaches take its bytes, the others keep their value. -/
theorem State.reg_setRegs (s : State) (bs : List Byte) (r : Reg) : (s.setRegs bs).reg r = bs.getD r.val (s.reg r) := by
  simp [State.reg, State.setRegs, Vector.get_eq_getElem]

/-- A register's value depends on `V` only. -/
theorem State.reg_eq_of_V {s t : State} (h : t.V = s.V) (r : Reg) : t.reg r = s.reg r := by simp [State.reg, h]

/-- Two states with the same registers one by one have the same `V`. -/
theorem State.V_ext {s t : State} (h : ∀ r, t.reg r = s.reg r) : t.V = s.V := by
  apply Vector.ext
  intro k hk
  simpa [State.reg, Vector.get_eq_getElem] using h ⟨k, hk⟩

theorem State.length_regsUpTo (s : State) (x : Reg) : (s.regsUpTo x).length = x.val + 1 := by
  have := x.isLt
  simp [State.regsUpTo]

theorem State.getD_regsUpTo (s : State) {x r : Reg} (h : r ≤ x) (d : Byte) : (s.regsUpTo x).getD r.val d = s.reg r := by
  have h' : r.val < x.val + 1 := Nat.lt_succ_of_le h
  simp [State.regsUpTo, State.reg, Vector.get_eq_getElem, List.getD_eq_getElem?_getD, h']

/-! ## The stack -/

/-- What a push does when there is room: the value in the first dead entry, one more live entry (R82). -/
theorem State.push_ok {s : State} (v : Word) (h : s.sp.val < 16) :
    s.push v = .ok { s with stack := s.stack.set s.sp.val v, sp := ⟨s.sp.val + 1, Nat.succ_lt_succ h⟩ } := by
  simp [State.push, h]

theorem State.push_error {s : State} (v : Word) (h : s.sp.val = 16) : s.push v = .error .overflow := by
  simp [State.push, h]

/-- What a pop does when an entry is live: its value, one live entry less (R80). -/
theorem State.pop_ok {s : State} (h : 0 < s.sp.val) :
    s.pop = .ok (s.stack[s.sp.val - 1]'(by have := s.sp.isLt; omega),
      { s with sp := ⟨s.sp.val - 1, by have := s.sp.isLt; omega⟩ }) := by
  simp [State.pop, h]

theorem State.pop_error {s : State} (h : s.sp.val = 0) : s.pop = .error .underflow := by
  simp [State.pop, h]

/-! ## Keys -/

theorem State.keyHeld_ok {s : State} {k : Byte} (h : k.toNat < 16) : s.keyHeld k = .ok s.keys[k.toNat] := by
  simp [State.keyHeld, h]

theorem State.keyHeld_error {s : State} {k : Byte} (h : 15 < k.toNat) : s.keyHeld k = .error (.keyIndex k) := by
  simp [State.keyHeld, show ¬k.toNat < 16 by omega]

/-- No key is held. -/
theorem State.lowestKey_none {s : State} : s.lowestKey = none ↔ ∀ k : Fin 16, s.keys.get k = false := by
  simp [State.lowestKey]

/-- The key `Fx0A` takes is held, and no lower one is (R135). -/
theorem State.lowestKey_some {s : State} {k : Fin 16} (h : s.lowestKey = some k) :
    s.keys.get k = true ∧ ∀ j < k, s.keys.get j = false := by
  rw [State.lowestKey, List.find?_eq_some_iff_getElem] at h
  obtain ⟨hk, i, hi, hik, hlt⟩ := h
  refine ⟨hk, fun j hj => ?_⟩
  have hki : k.val = i := by rw [← hik]; simp
  have := hlt j.val (by have : j.val < k.val := hj; omega)
  simpa using this

end Sys2Proof.Machine
end

