-- ==== Sys2Proof/Laws/Exec.lean ====
section
/-!
SUPPORT. What the execute phase can do, said once: `exec_eq` gives every instruction as the fault R151 lists for it, or
else its effect in closed form (`effect`), with no loop that may raise in it. Proofs about `exec` cite these.
-/
namespace Sys2Proof.Machine

/-- The effect of an instruction that raises no fault, in closed form. -/
def effect (i : Instr) (s : State) : State :=
  match i with
  | .halt => s.halt
  | .cls => s.setMem (clearFramebuffer s.mem)
  | .ret => match s.pop with
    | .ok (a, t) => t.setPc a
    | .error _ => s
  | .jp nnn => s.setPc (zext12 nnn)
  | .call nnn => match s.push s.pc with
    | .ok t => t.setPc (zext12 nnn)
    | .error _ => s
  | .seImm x nn => skipIf (s.reg x == nn) s
  | .sneImm x nn => skipIf (s.reg x != nn) s
  | .seReg x y => skipIf (s.reg x == s.reg y) s
  | .ldImm x nn => s.setV x nn
  | .addImm x nn => s.setV x (s.reg x + nn)
  | .ldReg x y => s.setV x (s.reg y)
  | .orReg x y => s.setV x (s.reg x ||| s.reg y)
  | .andReg x y => s.setV x (s.reg x &&& s.reg y)
  | .xorReg x y => s.setV x (s.reg x ^^^ s.reg y)
  | .addReg x y => s.setResultAndFlag x (s.reg x + s.reg y) (carryFlag (s.reg x) (s.reg y))
  | .sub x y => s.setResultAndFlag x (s.reg x - s.reg y) (noBorrowFlag (s.reg x) (s.reg y))
  | .shr x _ => s.setResultAndFlag x (s.reg x >>> 1) (shiftedOutLow (s.reg x))
  | .subn x y => s.setResultAndFlag x (s.reg y - s.reg x) (noBorrowFlag (s.reg y) (s.reg x))
  | .shl x _ => s.setResultAndFlag x (s.reg x <<< 1) (shiftedOutHigh (s.reg x))
  | .sneReg x y => skipIf (s.reg x != s.reg y) s
  | .ldI nnn => s.setI (zext12 nnn)
  | .jpV0 nnn => s.setPc (zext12 nnn + zext8 (s.reg .v0))
  | .rnd x nn => s.drawRandom.2.setV x (s.drawRandom.1 &&& nn)
  | .drw x y n =>
    let c := Canvas.drawSprite (s.reg x).toNat n.val ⟨s.mem, false⟩ s.I.toNat (s.reg y).toNat
    (s.setMem c.mem).setV .vF (flagByte c.collision)
  | .skp x => skipIf (s.keys.get (Fin.ofNat 16 (s.reg x).toNat)) s
  | .sknp x => skipIf (!s.keys.get (Fin.ofNat 16 (s.reg x).toNat)) s
  | .ldFromDT x => s.setV x s.DT
  | .ldKey x => match s.lowestKey with
    | none => s.setPc (s.pc - 2#16)
    | some k => s.setV x (BitVec.ofNat 8 k.val)
  | .ldDT x => s.setDT (s.reg x)
  | .ldST x => s.setST (s.reg x)
  | .addI x => s.setI (s.I + zext8 (s.reg x))
  | .ldFont x => s.setI (glyphAddr (s.reg x))
  | .bcd x => s.setMem (s.mem.writeAll s.I.toNat (bcdDigits (s.reg x)))
  | .store x => s.setMem (s.mem.writeAll s.I.toNat (s.regsUpTo x))
  | .load x => s.setRegs (s.mem.readAll s.I.toNat (x.val + 1))

/-! ## The forms that can raise -/

theorem storeAtI_ok {s : State} {bs : List Byte} (h : s.I.toNat + bs.length ≤ 0x1000) :
    s.storeAtI bs = .ok (s.setMem (s.mem.writeAll s.I.toNat bs)) := by
  simp [State.storeAtI, State.effAddr, storeBytes_ok s.mem h]

theorem storeAtI_error {s : State} {bs : List Byte} (h : 0x1000 < s.I.toNat + bs.length) (hb : 0 < bs.length) :
    s.storeAtI bs = .error (.outOfRange (max s.I.toNat 0x1000)) := by
  simp [State.storeAtI, State.effAddr, storeBytes_error s.mem h hb]

theorem length_bcdDigits (v : Byte) : (bcdDigits v).length = 3 := by simp [bcdDigits]

theorem execRet_eq (s : State) : execRet s = if s.sp.val = 0 then raise s .underflow else .next (effect .ret s) := by
  by_cases h : s.sp.val = 0
  · simp [execRet, h, State.pop_error h, settle]
  · simp only [execRet, effect, State.pop_ok (Nat.pos_of_ne_zero h), settle, h, if_false]

theorem execCall_eq (nnn : Addr12) (s : State) :
    execCall nnn s = if s.sp.val = 16 then raise s .overflow else .next (effect (.call nnn) s) := by
  by_cases h : s.sp.val = 16
  · simp [execCall, h, State.push_error _ h, settle]
  · have : s.sp.val < 16 := by have := s.sp.isLt; omega
    simp only [execCall, effect, State.push_ok _ this, settle, h, if_false]

theorem execBcd_eq (x : Reg) (s : State) :
    execBcd x s = if 0xFFF < s.I.toNat + 2 then raise s (.outOfRange (max s.I.toNat 0x1000)) else .next (effect (.bcd x) s) := by
  by_cases h : 0xFFF < s.I.toNat + 2
  · rw [if_pos h, execBcd, storeAtI_error (by rw [length_bcdDigits]; omega) (by rw [length_bcdDigits]; omega)]; rfl
  · rw [if_neg h, execBcd, storeAtI_ok (by rw [length_bcdDigits]; omega)]; rfl

theorem execStore_eq (x : Reg) (s : State) :
    execStore x s =
      if 0xFFF < s.I.toNat + x.val then raise s (.outOfRange (max s.I.toNat 0x1000)) else .next (effect (.store x) s) := by
  by_cases h : 0xFFF < s.I.toNat + x.val
  · rw [if_pos h, execStore, storeAtI_error (by rw [State.length_regsUpTo]; omega) (by rw [State.length_regsUpTo]; omega)]; rfl
  · rw [if_neg h, execStore, storeAtI_ok (by rw [State.length_regsUpTo]; omega)]; rfl

theorem execLoad_eq (x : Reg) (s : State) :
    execLoad x s =
      if 0xFFF < s.I.toNat + x.val then raise s (.outOfRange (max s.I.toNat 0x1000)) else .next (effect (.load x) s) := by
  by_cases h : 0xFFF < s.I.toNat + x.val
  · rw [if_pos h, execLoad, State.effAddr, Nat.add_zero, loadBytes_error s.mem (by omega) (by omega)]; rfl
  · rw [if_neg h, execLoad, State.effAddr, Nat.add_zero, loadBytes_ok s.mem (by omega)]; rfl

theorem execDrw_eq (x y : Reg) (n : Fin 16) (s : State) :
    execDrw x y n s =
      if 0 < n.val ∧ 0xFFF < s.I.toNat + n.val - 1 then raise s (.outOfRange (max s.I.toNat 0x1000))
      else .next (effect (.drw x y n) s) := by
  by_cases h : 0 < n.val ∧ 0xFFF < s.I.toNat + n.val - 1
  · rw [if_pos h, execDrw, State.effAddr, Nat.add_zero, Canvas.drawRows_error _ _ _ h.1 (by omega)]; rfl
  · rw [if_neg h, execDrw, State.effAddr, Nat.add_zero, Canvas.drawRows_ok _ _ _ (by omega)]; rfl

theorem keyHeld_eq (s : State) (k : Byte) :
    s.keyHeld k = if 15 < k.toNat then .error (.keyIndex k) else .ok (s.keys.get (Fin.ofNat 16 k.toNat)) := by
  by_cases h : 15 < k.toNat
  · rw [if_pos h, State.keyHeld_error h]
  · rw [if_neg h, State.keyHeld_ok (by omega)]
    simp [Vector.get_eq_getElem, Fin.ofNat, Nat.mod_eq_of_lt (show k.toNat < 16 by omega)]

theorem execSkp_eq (x : Reg) (s : State) :
    execSkp x s = if 15 < (s.reg x).toNat then raise s (.keyIndex (s.reg x)) else .next (effect (.skp x) s) := by
  by_cases h : 15 < (s.reg x).toNat <;> simp [execSkp, keyHeld_eq, h, settle, effect]

theorem execSknp_eq (x : Reg) (s : State) :
    execSknp x s = if 15 < (s.reg x).toNat then raise s (.keyIndex (s.reg x)) else .next (effect (.sknp x) s) := by
  by_cases h : 15 < (s.reg x).toNat <;> simp [execSknp, keyHeld_eq, h, settle, effect]

/-- Every instruction, in every state: the fault R151 lists for it, or else its effect. -/
theorem exec_eq (i : Instr) (s : State) :
    exec i s = match trapIn i s with
      | some t => .next (s.takeFault t)
      | none => .next (effect i s) := by
  cases i
  case ret => by_cases h : s.sp.val = 0 <;> simp [exec, execRet_eq, trapIn, h, raise]
  case call nnn => by_cases h : s.sp.val = 16 <;> simp [exec, execCall_eq, trapIn, h, raise]
  case drw x y n =>
    by_cases h : 0 < n.val ∧ 0xFFF < s.I.toNat + n.val - 1 <;> simp only [exec, execDrw_eq, trapIn, h, raise] <;> simp
  case bcd x => by_cases h : 0xFFF < s.I.toNat + 2 <;> simp only [exec, execBcd_eq, trapIn, h, raise] <;> simp
  case store x => by_cases h : 0xFFF < s.I.toNat + x.val <;> simp only [exec, execStore_eq, trapIn, h, raise] <;> simp
  case load x => by_cases h : 0xFFF < s.I.toNat + x.val <;> simp only [exec, execLoad_eq, trapIn, h, raise] <;> simp
  case skp x => by_cases h : 15 < (s.reg x).toNat <;> simp [exec, execSkp_eq, trapIn, h, raise]
  case sknp x => by_cases h : 15 < (s.reg x).toNat <;> simp [exec, execSknp_eq, trapIn, h, raise]
  case ldKey x => cases h : s.lowestKey <;> simp [exec, execLdKey, trapIn, effect, h]
  all_goals rfl

/-- An instruction that R151 lists no fault for completes with its effect. -/
theorem exec_of_no_trap {i : Instr} {s : State} (h : trapIn i s = none) : exec i s = .next (effect i s) := by
  rw [exec_eq, h]

/-- An instruction that raises takes the fault. -/
theorem exec_of_trap {i : Instr} {s : State} {t : Trap} (h : trapIn i s = some t) : exec i s = .next (s.takeFault t) := by
  rw [exec_eq, h]

/-- What a next state of `exec` is. -/
theorem exec_cases {i : Instr} {s t : State} (h : exec i s = .next t) :
    (∃ tr, trapIn i s = some tr ∧ t = s.takeFault tr) ∨ (trapIn i s = none ∧ t = effect i s) := by
  rw [exec_eq] at h
  cases ht : trapIn i s with
  | some tr => rw [ht] at h; injection h with h; exact .inl ⟨tr, rfl, h.symm⟩
  | none => rw [ht] at h; injection h with h; exact .inr ⟨rfl, h.symm⟩

/-- No instruction is refused and none ends in a host-level fault. -/
theorem exec_next (i : Instr) (s : State) : ∃ t, exec i s = .next t := by
  rw [exec_eq]; cases trapIn i s <;> exact ⟨_, rfl⟩

theorem skipIf_eq (c : Bool) (s : State) : skipIf c s = if c then s.setPc (s.pc + 2#16) else s := rfl

/-! ## What every effect does to `status`, `initialising` and memory -/

/-- A meaning that raises takes the fault that R151 lists for it. -/
theorem faultsWith_of_trap {i : Instr} {s : State} {t : Trap} (h : trapIn i s = some t) : faultsWith (exec i s) t :=
  ⟨_, exec_of_trap h, rfl, rfl, rfl⟩

/-- Only HALT's effect changes `status`. -/
theorem effect_status (i : Instr) (s : State) : (effect i s).status = if i = .halt then .halted else s.status := by
  cases i <;> simp [effect, skipIf_eq]
  case ret => by_cases h : s.sp.val = 0 <;> simp [State.pop_error, State.pop_ok, h, Nat.pos_of_ne_zero]
  case call =>
    by_cases h : s.sp.val < 16
    · simp [State.push_ok _ h]
    · rw [State.push_error _ (by omega)]
  case ldKey => cases s.lowestKey <;> simp
  all_goals (split <;> simp)

/-- No effect changes `initialising`. -/
theorem effect_initialising (i : Instr) (s : State) : (effect i s).initialising = s.initialising := by
  cases i <;> simp [effect, skipIf_eq]
  case ret => by_cases h : s.sp.val = 0 <;> simp [State.pop_error, State.pop_ok, h, Nat.pos_of_ne_zero]
  case call =>
    by_cases h : s.sp.val < 16
    · simp [State.push_ok _ h]
    · rw [State.push_error _ (by omega)]
  case ldKey => cases s.lowestKey <;> simp
  all_goals (split <;> simp)

/-- Every effect keeps memory's canonical form. -/
theorem wf_effect (i : Instr) (s : State) (h : s.mem.wf) (ht : trapIn i s = none) : (effect i s).mem.wf := by
  cases i <;> simp only [effect, skipIf_eq]
  case cls => exact wf_clearFramebuffer h
  case ret => by_cases h' : s.sp.val = 0 <;> simpa [State.pop_error, State.pop_ok, h', Nat.pos_of_ne_zero] using h
  case call =>
    by_cases h' : s.sp.val < 16
    · simpa [State.push_ok _ h'] using h
    · rw [State.push_error _ (by omega)]; exact h
  case ldKey => cases s.lowestKey <;> simpa using h
  case drw x y n => exact Canvas.wf_drawSprite _ _ _ _ h
  case bcd x =>
    refine Memory.wf_writeAll h ?_
    simp only [trapIn] at ht; split at ht; cases ht
    rw [length_bcdDigits]; simp [Config.memSize]; omega
  case store x =>
    refine Memory.wf_writeAll h ?_
    simp only [trapIn] at ht; split at ht; cases ht
    rw [State.length_regsUpTo]; simp [Config.memSize]; omega
  all_goals first
    | exact h
    | (split <;> exact h)

/-- Memory after reset has its canonical form. -/
theorem wf_reset : State.reset.mem.wf := ⟨List.Pairwise.nil, by simp [State.reset]⟩

end Sys2Proof.Machine
end

