-- ==== Sys2Proof/Laws/PerInstr.lean ====
section
/-!
SUPPORT. FixedBits, for every instruction: its encoding has the fixed bits of its row of the opcode table
(spec/30_encoding.md R54), and its row stands in the table.
-/
namespace Sys2Proof.Laws.FixedBits

/-- The encoding of an instruction matches its row: `w & mask = match` (R54). -/
def Statement (i : Instr) : Prop := encode i &&& i.row.mask = i.row.value ∧ i.row ∈ opcodeTable

/-- Every instruction's row stands in the table. -/
theorem row_mem (i : Instr) : i.row ∈ opcodeTable := by cases i <;> simp [Instr.row, opcodeTable]

theorem halt : Statement .halt := ⟨by decide, row_mem _⟩
theorem cls : Statement .cls := ⟨by decide, row_mem _⟩
theorem ret : Statement .ret := ⟨by decide, row_mem _⟩
theorem jp (nnn : Addr12) : Statement (.jp nnn) := ⟨and_mask_mode (fieldMode_formatA nnn (by decide)), row_mem _⟩
theorem call (nnn : Addr12) : Statement (.call nnn) := ⟨and_mask_mode (fieldMode_formatA nnn (by decide)), row_mem _⟩
theorem seImm (x : Reg) (nn : Byte) : Statement (.seImm x nn) := ⟨and_mask_mode (fieldMode_formatXN x nn (by decide)), row_mem _⟩
theorem sneImm (x : Reg) (nn : Byte) : Statement (.sneImm x nn) := ⟨and_mask_mode (fieldMode_formatXN x nn (by decide)), row_mem _⟩
theorem seReg (x y : Reg) : Statement (.seReg x y) := ⟨and_mask_low 4 (by decide) (fieldMode_formatXYN x y _ (by decide)) (slice_formatXYN x y _ (by decide)), row_mem _⟩
theorem ldImm (x : Reg) (nn : Byte) : Statement (.ldImm x nn) := ⟨and_mask_mode (fieldMode_formatXN x nn (by decide)), row_mem _⟩
theorem addImm (x : Reg) (nn : Byte) : Statement (.addImm x nn) := ⟨and_mask_mode (fieldMode_formatXN x nn (by decide)), row_mem _⟩
theorem ldReg (x y : Reg) : Statement (.ldReg x y) := ⟨and_mask_low 4 (by decide) (fieldMode_formatXYN x y _ (by decide)) (slice_formatXYN x y _ (by decide)), row_mem _⟩
theorem orReg (x y : Reg) : Statement (.orReg x y) := ⟨and_mask_low 4 (by decide) (fieldMode_formatXYN x y _ (by decide)) (slice_formatXYN x y _ (by decide)), row_mem _⟩
theorem andReg (x y : Reg) : Statement (.andReg x y) := ⟨and_mask_low 4 (by decide) (fieldMode_formatXYN x y _ (by decide)) (slice_formatXYN x y _ (by decide)), row_mem _⟩
theorem xorReg (x y : Reg) : Statement (.xorReg x y) := ⟨and_mask_low 4 (by decide) (fieldMode_formatXYN x y _ (by decide)) (slice_formatXYN x y _ (by decide)), row_mem _⟩
theorem addReg (x y : Reg) : Statement (.addReg x y) := ⟨and_mask_low 4 (by decide) (fieldMode_formatXYN x y _ (by decide)) (slice_formatXYN x y _ (by decide)), row_mem _⟩
theorem sub (x y : Reg) : Statement (.sub x y) := ⟨and_mask_low 4 (by decide) (fieldMode_formatXYN x y _ (by decide)) (slice_formatXYN x y _ (by decide)), row_mem _⟩
theorem shr (x y : Reg) : Statement (.shr x y) := ⟨and_mask_low 4 (by decide) (fieldMode_formatXYN x y _ (by decide)) (slice_formatXYN x y _ (by decide)), row_mem _⟩
theorem subn (x y : Reg) : Statement (.subn x y) := ⟨and_mask_low 4 (by decide) (fieldMode_formatXYN x y _ (by decide)) (slice_formatXYN x y _ (by decide)), row_mem _⟩
theorem shl (x y : Reg) : Statement (.shl x y) := ⟨and_mask_low 4 (by decide) (fieldMode_formatXYN x y _ (by decide)) (slice_formatXYN x y _ (by decide)), row_mem _⟩
theorem sneReg (x y : Reg) : Statement (.sneReg x y) := ⟨and_mask_low 4 (by decide) (fieldMode_formatXYN x y _ (by decide)) (slice_formatXYN x y _ (by decide)), row_mem _⟩
theorem ldI (nnn : Addr12) : Statement (.ldI nnn) := ⟨and_mask_mode (fieldMode_formatA nnn (by decide)), row_mem _⟩
theorem jpV0 (nnn : Addr12) : Statement (.jpV0 nnn) := ⟨and_mask_mode (fieldMode_formatA nnn (by decide)), row_mem _⟩
theorem rnd (x : Reg) (nn : Byte) : Statement (.rnd x nn) := ⟨and_mask_mode (fieldMode_formatXN x nn (by decide)), row_mem _⟩
theorem drw (x y : Reg) (n : Fin 16) : Statement (.drw x y n) := ⟨and_mask_mode (fieldMode_formatXYN x y n (by decide)), row_mem _⟩
theorem skp (x : Reg) : Statement (.skp x) := ⟨and_mask_low 8 (by decide) (fieldMode_formatXN x _ (by decide)) (slice_formatXN x _ (by decide)), row_mem _⟩
theorem sknp (x : Reg) : Statement (.sknp x) := ⟨and_mask_low 8 (by decide) (fieldMode_formatXN x _ (by decide)) (slice_formatXN x _ (by decide)), row_mem _⟩
theorem ldFromDT (x : Reg) : Statement (.ldFromDT x) := ⟨and_mask_low 8 (by decide) (fieldMode_formatXN x _ (by decide)) (slice_formatXN x _ (by decide)), row_mem _⟩
theorem ldKey (x : Reg) : Statement (.ldKey x) := ⟨and_mask_low 8 (by decide) (fieldMode_formatXN x _ (by decide)) (slice_formatXN x _ (by decide)), row_mem _⟩
theorem ldDT (x : Reg) : Statement (.ldDT x) := ⟨and_mask_low 8 (by decide) (fieldMode_formatXN x _ (by decide)) (slice_formatXN x _ (by decide)), row_mem _⟩
theorem ldST (x : Reg) : Statement (.ldST x) := ⟨and_mask_low 8 (by decide) (fieldMode_formatXN x _ (by decide)) (slice_formatXN x _ (by decide)), row_mem _⟩
theorem addI (x : Reg) : Statement (.addI x) := ⟨and_mask_low 8 (by decide) (fieldMode_formatXN x _ (by decide)) (slice_formatXN x _ (by decide)), row_mem _⟩
theorem ldFont (x : Reg) : Statement (.ldFont x) := ⟨and_mask_low 8 (by decide) (fieldMode_formatXN x _ (by decide)) (slice_formatXN x _ (by decide)), row_mem _⟩
theorem bcd (x : Reg) : Statement (.bcd x) := ⟨and_mask_low 8 (by decide) (fieldMode_formatXN x _ (by decide)) (slice_formatXN x _ (by decide)), row_mem _⟩
theorem store (x : Reg) : Statement (.store x) := ⟨and_mask_low 8 (by decide) (fieldMode_formatXN x _ (by decide)) (slice_formatXN x _ (by decide)), row_mem _⟩
theorem load (x : Reg) : Statement (.load x) := ⟨and_mask_low 8 (by decide) (fieldMode_formatXN x _ (by decide)) (slice_formatXN x _ (by decide)), row_mem _⟩

end Sys2Proof.Laws.FixedBits
end

