-- ==== Sys2Proof/Laws/Step.lean ====
section
/-!
SUPPORT. What a step and a transaction can do, said once, and that the word `withFetchWord` places is the one the next
step runs.
-/
namespace Sys2Proof.Machine

/-! ## Fetch and decode -/

/-- The word a fetch at `pc` reads. -/
def State.wordAtPc (s : State) : Word := Word.ofBytes (s.mem.read s.pc.toNat) (s.mem.read (s.pc.toNat + 1))

theorem fetchWord_ok {s : State} (h : s.pc.toNat ≤ 0xFFE) : fetchWord s = .ok s.wordAtPc := memRead16_ok s.mem h

theorem fetchWord_error {s : State} (h : 0xFFE < s.pc.toNat) : fetchWord s = .error (.outOfRange (max s.pc.toNat 0x1000)) :=
  memRead16_error s.mem h

/-- The instruction a step would run, or the fault it takes before: the address fault first, then the decode error. -/
theorem fetchInstr_eq (s : State) :
    fetchInstr s = if 0xFFE < s.pc.toNat then .error (.outOfRange (max s.pc.toNat 0x1000))
      else match decode s.wordAtPc with
        | .ok i => .ok i
        | .error _ => .error (.illegal s.wordAtPc s.pc) := by
  by_cases h : 0xFFE < s.pc.toNat
  · simp [fetchInstr, fetchWord_error h, h]
  · rw [fetchInstr, fetchWord_ok (by omega), if_neg h] <;> rfl

theorem fetchInstr_ok_iff (s : State) (i : Instr) :
    fetchInstr s = .ok i ↔ s.pc.toNat ≤ 0xFFE ∧ decode s.wordAtPc = .ok i := by
  rw [fetchInstr_eq]
  by_cases h : 0xFFE < s.pc.toNat
  · simp [h]
  · rw [if_neg h]
    cases decode s.wordAtPc
    · simp
    · simp; omega

/-! ## Step -/

theorem step_not_running {s : State} (h : s.status ≠ .running) : step s = .next s := by
  cases hs : s.status <;> simp_all [step]

theorem step_of_instr {s : State} {i : Instr} (hr : s.status = .running) (h : fetchInstr s = .ok i) :
    step s = exec i (advance s) := by
  simp [step, hr, h]

theorem step_of_trap {s : State} {t : Trap} (hr : s.status = .running) (h : fetchInstr s = .error t) :
    step s = .next ((advance s).takeFault t) := by
  simp [step, hr, h, raise]

/-- What a next state of `step` is: the same state, when the core is not running; a faulted state; or the effect of the
instruction at `pc`. -/
theorem step_cases {s t : State} (h : step s = .next t) :
    (s.status ≠ .running ∧ t = s) ∨
    (s.status = .running ∧ ∃ tr, t = (advance s).takeFault tr ∧
      (fetchInstr s = .error tr ∨ ∃ i, fetchInstr s = .ok i ∧ trapIn i (advance s) = some tr)) ∨
    (s.status = .running ∧ ∃ i, fetchInstr s = .ok i ∧ trapIn i (advance s) = none ∧ t = effect i (advance s)) := by
  by_cases hr : s.status = .running
  · cases hf : fetchInstr s with
    | error tr =>
      rw [step_of_trap hr hf] at h; injection h with h
      exact .inr (.inl ⟨hr, tr, h.symm, .inl rfl⟩)
    | ok i =>
      rw [step_of_instr hr hf] at h
      rcases exec_cases h with ⟨tr, ht, rfl⟩ | ⟨ht, rfl⟩
      · exact .inr (.inl ⟨hr, tr, rfl, .inr ⟨i, rfl, ht⟩⟩)
      · exact .inr (.inr ⟨hr, i, rfl, ht, rfl⟩)
  · rw [step_not_running hr] at h; injection h with h
    exact .inl ⟨hr, h.symm⟩

/-- Every step answers a next state. -/
theorem step_next (s : State) : ∃ t, step s = .next t := by
  by_cases hr : s.status = .running
  · cases hf : fetchInstr s with
    | error tr => exact ⟨_, step_of_trap hr hf⟩
    | ok i => obtain ⟨t, ht⟩ := exec_next i (advance s); exact ⟨t, by rw [step_of_instr hr hf, ht]⟩
  · exact ⟨s, step_not_running hr⟩

/-! ## The placed word -/

theorem fetchablePc_le (s : State) : (fetchablePc s).toNat ≤ 0xFFE := by
  by_cases h : s.pc.toNat + 2 ≤ 0x1000
  · simp only [fetchablePc, Config.memSize, h, if_true]; omega
  · simp only [fetchablePc, Config.memSize, h, if_false]; decide

/-- The very next step fetches the placed word. -/
theorem wordAtPc_withFetchWord (s : State) (nbits w : Nat) : (s.withFetchWord nbits w).wordAtPc = tableWord nbits w := by
  simp only [State.wordAtPc, State.withFetchWord, placeFetchWord]
  rw [Memory.read_write_ne _ _ (by omega), Memory.read_write_same, Memory.read_write_same, Word.ofBytes_hi_lo]

/-- The very next step runs the instruction that the placed word encodes. -/
theorem step_withFetchWord (s : State) {nbits w : Nat} {i : Instr} (h : decodeTableWord nbits w = some i) :
    step (s.withFetchWord nbits w) = exec i (advance (s.withFetchWord nbits w)) := by
  refine step_of_instr rfl ((fetchInstr_ok_iff _ _).2 ⟨fetchablePc_le s, ?_⟩)
  rw [wordAtPc_withFetchWord]
  rw [decodeTableWord, decodeBytes, Word.ofBytes_hi_lo] at h
  cases hd : decode (tableWord nbits w) <;> simp_all

end Sys2Proof.Machine
end

