-- ==== Sys2Proof/Tests/Slice0.lean ====
section
/-!
SUPPORT. Tests of one decode or one step each, and a witness for the hypotheses of every obligation. Expected values are
the spec's: words from the table of spec/30_encoding.md R54, results from spec/95_test_vectors.md (the vector's name
stands before each test) or from the rule a docstring names.
-/
namespace Sys2Proof.Tests

open Sys2Proof Sys2Proof.Machine

/-! ## Helpers -/

/-- What a next state shows, or nothing for a stop. -/
def peek {A : Type} (r : Result) (f : State → A) : Option A :=
  match r with
  | .next s => some (f s)
  | _ => none

/-- Why a transaction is refused, if it is. -/
def refusal (r : Result) : Option Refusal :=
  match r with
  | .refused e => some e
  | _ => none

/-- The reset state about to run a word. -/
def running (w : Nat) : State := State.reset.withFetchWord 16 w

/-- A state with some registers set. -/
def withRegs (s : State) (l : List (Reg × Byte)) : State := l.foldl (fun s p => s.setV p.1 p.2) s

/-- A state with bytes written from an address on. -/
def withBytes (s : State) (a : Nat) (bs : List Byte) : State := s.setMem (s.mem.writeAll a bs)

/-- A state with a set of keys held. -/
def withKeys (s : State) (ks : List (Fin 16)) : State := s.setKeys (Vector.ofFn (fun k => decide (k ∈ ks)))

/-- A state with a number of live stack entries, all 0x0345. -/
def withStack (s : State) (n : Fin 17) : State := { s with sp := n, stack := Vector.replicate 16 0x0345 }

/-- The status a state holds, the cause and the advisory information. -/
def verdict (s : State) : Status × Cause × Advisory := (s.status, s.cause, s.advisory)

/-- The verdict on an access out of range. -/
def outOfRangeAt (a : Nat) : Status × Cause × Advisory := (.faulted, .addressOutOfRange, .address a)

/-! ## Decoding: one word of each form, bit by bit from the table of R54 -/

theorem test_decode_halt : decode 0b0000_0000_0000_0000#16 = .ok (.halt) := by decide
theorem test_decode_cls : decode 0b0000_0000_1110_0000#16 = .ok (.cls) := by decide
theorem test_decode_ret : decode 0b0000_0000_1110_1110#16 = .ok (.ret) := by decide
theorem test_decode_jp : decode 0b0001_1010_1011_1100#16 = .ok (.jp 0xABC) := by decide
theorem test_decode_call : decode 0b0010_1010_1011_1100#16 = .ok (.call 0xABC) := by decide
theorem test_decode_seImm : decode 0b0011_1010_0000_0101#16 = .ok (.seImm 0xA 0x05) := by decide
theorem test_decode_sneImm : decode 0b0100_1010_0000_0101#16 = .ok (.sneImm 0xA 0x05) := by decide
theorem test_decode_seReg : decode 0b0101_0001_0010_0000#16 = .ok (.seReg 1 2) := by decide
theorem test_decode_ldImm : decode 0b0110_1010_0111_1011#16 = .ok (.ldImm 0xA 0x7B) := by decide
theorem test_decode_addImm : decode 0b0111_0001_1111_1110#16 = .ok (.addImm 1 0xFE) := by decide
theorem test_decode_ldReg : decode 0b1000_0001_0010_0000#16 = .ok (.ldReg 1 2) := by decide
theorem test_decode_orReg : decode 0b1000_0001_0010_0001#16 = .ok (.orReg 1 2) := by decide
theorem test_decode_andReg : decode 0b1000_0001_0010_0010#16 = .ok (.andReg 1 2) := by decide
theorem test_decode_xorReg : decode 0b1000_0001_0010_0011#16 = .ok (.xorReg 1 2) := by decide
theorem test_decode_addReg : decode 0b1000_0001_0010_0100#16 = .ok (.addReg 1 2) := by decide
theorem test_decode_sub : decode 0b1000_0001_0010_0101#16 = .ok (.sub 1 2) := by decide
theorem test_decode_shr : decode 0b1000_0001_0010_0110#16 = .ok (.shr 1 2) := by decide
theorem test_decode_subn : decode 0b1000_0001_0010_0111#16 = .ok (.subn 1 2) := by decide
theorem test_decode_shl : decode 0b1000_0001_0010_1110#16 = .ok (.shl 1 2) := by decide
theorem test_decode_sneReg : decode 0b1001_0001_0010_0000#16 = .ok (.sneReg 1 2) := by decide
theorem test_decode_ldI : decode 0b1010_0001_0010_0011#16 = .ok (.ldI 0x123) := by decide
theorem test_decode_jpV0 : decode 0b1011_0011_0000_0001#16 = .ok (.jpV0 0x301) := by decide
theorem test_decode_rnd : decode 0b1100_0001_0000_1111#16 = .ok (.rnd 1 0x0F) := by decide
theorem test_decode_drw : decode 0b1101_0001_0010_0101#16 = .ok (.drw 1 2 5) := by decide
theorem test_decode_skp : decode 0b1110_0001_1001_1110#16 = .ok (.skp 1) := by decide
theorem test_decode_sknp : decode 0b1110_0001_1010_0001#16 = .ok (.sknp 1) := by decide
theorem test_decode_ldFromDT : decode 0b1111_0011_0000_0111#16 = .ok (.ldFromDT 3) := by decide
theorem test_decode_ldKey : decode 0b1111_0011_0000_1010#16 = .ok (.ldKey 3) := by decide
theorem test_decode_ldDT : decode 0b1111_0011_0001_0101#16 = .ok (.ldDT 3) := by decide
theorem test_decode_ldST : decode 0b1111_0011_0001_1000#16 = .ok (.ldST 3) := by decide
theorem test_decode_addI : decode 0b1111_0011_0001_1110#16 = .ok (.addI 3) := by decide
theorem test_decode_ldFont : decode 0b1111_0011_0010_1001#16 = .ok (.ldFont 3) := by decide
theorem test_decode_bcd : decode 0b1111_0011_0011_0011#16 = .ok (.bcd 3) := by decide
theorem test_decode_store : decode 0b1111_0011_0101_0101#16 = .ok (.store 3) := by decide
theorem test_decode_load : decode 0b1111_0011_0110_0101#16 = .ok (.load 3) := by decide

/-- Illegal words of 2.1, one of each class of R56 and its neighbours. -/
theorem test_decode_illegal_words :
    [0x0001, 0x0230, 0x01E0, 0x5121, 0x9125, 0x8128, 0x812F, 0xE19F, 0xE09D, 0xF100, 0xF175, 0xF156].all
      (fun w => (decodeTableWord 16 w).isNone) = true := by decide

/-- A table word lies in memory most significant byte first, and one byte is no instruction (R50). -/
theorem test_decode_bytes : decodeBytes [0x12, 0x34, 0x56] = .ok (.jp 0x234, [0x56]) ∧ decodeBytes [0x12] = .error .truncated := by
  decide

theorem test_decodeTableWord : decodeTableWord 16 0xD125 = some (.drw 1 2 5) := by decide

/-! ## One step of each instruction -/

/-- V-S1. -/
theorem test_halt :
    peek (step (State.reset)) (fun s => (s.status, s.pc, s.mem)) = some (.halted, 0x202, []) := by decide

/-- V-S7. -/
theorem test_halted_step :
    peek (step ({ running 0x6A7B with status := .halted })) (fun s => (s.status, s.pc, s.reg 0xA)) = some (.halted, 0x200, 0) := by decide

/-- V-S8. -/
theorem test_faulted_step :
    peek (step ({ running 0x6A7B with status := .faulted })) (fun s => (s.status, s.pc, s.reg 0xA)) = some (.faulted, 0x200, 0) := by decide

/-- V-S3. -/
theorem test_odd_pc :
    peek (step (withBytes { State.reset with pc := 0x201 } 0x201 [0x6A, 0x7B])) (fun s => (s.reg 0xA, s.pc)) = some (0x7B, 0x203) := by decide

/-- V-S4. -/
theorem test_highest_pc :
    peek (step (withBytes { State.reset with pc := 0xFFE } 0xFFE [0x12])) (fun s => s.pc) = some 0x200 := by decide

/-- V-S5. -/
theorem test_fetch_out_of_range :
    peek (step (withBytes { State.reset with pc := 0xFFF } 0xFFF [0x60])) (fun s => verdict s) = some (outOfRangeAt 0x1000) := by decide

/-- V-C22. -/
theorem test_decode_error :
    peek (step (running 0x5121)) (fun s => verdict s) = some (.faulted, .decodeError, .fetched 0x5121 0x200) := by decide

/-- V-D25. -/
theorem test_cls :
    peek (step (withRegs (withBytes (withBytes (running 0x00E0) 0xEFF [0xAA, 0xFF]) 0xFFF [0xFF]) [(0xF, 1)])) (fun s => (s.mem.read 0xEFF, s.mem.read 0xF00, s.mem.read 0xFFF, s.reg 0xF)) = some (0xAA, 0, 0, 1) := by decide

/-- V-C8, with both entries 345. -/
theorem test_ret :
    peek (step (withStack (running 0x00EE) 2)) (fun s => (s.pc, s.sp)) = some (0x345, 1) := by decide

/-- V-C7. -/
theorem test_ret_underflow :
    peek (step (running 0x00EE)) (fun s => verdict s) = some (.faulted, .stackUnderflow, .nothing) := by decide

/-- V-C3. -/
theorem test_jp :
    peek (step (running 0x1FFF)) (fun s => s.pc) = some 0xFFF := by decide

/-- V-C5, from 200. -/
theorem test_call :
    peek (step (withStack (running 0x2ABC) 15)) (fun s => (s.stack.get 15, s.stack.get 14, s.sp, s.pc)) = some (0x202, 0x345, 16, 0xABC) := by decide

/-- V-C6. -/
theorem test_call_overflow :
    peek (step (withStack (running 0x2ABC) 16)) (fun s => verdict s) = some (.faulted, .stackOverflow, .nothing) := by decide

/-- V-C11. -/
theorem test_jpV0 :
    peek (step (withRegs (running 0xBFFF) [(0, 0xFF)])) (fun s => s.pc) = some 0x10FE := by decide

/-- V-C13. -/
theorem test_seImm_equal :
    peek (step (withRegs (running 0x3A05) [(0xA, 5)])) (fun s => s.pc) = some 0x204 := by decide

/-- V-C14. -/
theorem test_seImm_unequal :
    peek (step (withRegs (running 0x3A05) [(0xA, 6)])) (fun s => s.pc) = some 0x202 := by decide

/-- V-C15. -/
theorem test_sneImm_unequal :
    peek (step (withRegs (running 0x4A05) [(0xA, 6)])) (fun s => s.pc) = some 0x204 := by decide

/-- V-C16. -/
theorem test_sneImm_equal :
    peek (step (withRegs (running 0x4A05) [(0xA, 5)])) (fun s => s.pc) = some 0x202 := by decide

/-- V-C17. -/
theorem test_seReg :
    peek (step (withRegs (running 0x5120) [(1, 9), (2, 9)])) (fun s => s.pc) = some 0x204 := by decide

/-- V-C18. -/
theorem test_seReg_unequal :
    peek (step (withRegs (running 0x5120) [(1, 9), (2, 0xA)])) (fun s => s.pc) = some 0x202 := by decide

/-- V-C19. -/
theorem test_sneReg :
    peek (step (withRegs (running 0x9120) [(1, 9), (2, 0xA)])) (fun s => s.pc) = some 0x204 := by decide

/-- V-C20. -/
theorem test_sneReg_equal :
    peek (step (withRegs (running 0x9120) [(1, 9), (2, 9)])) (fun s => s.pc) = some 0x202 := by decide

/-- V-A1. -/
theorem test_ldImm :
    peek (step (running 0x6A7B)) (fun s => (s.reg 0xA, s.pc)) = some (0x7B, 0x202) := by decide

/-- V-A3. -/
theorem test_addImm :
    peek (step (withRegs (running 0x71FF) [(1, 1)])) (fun s => (s.reg 1, s.reg 0xF)) = some (0, 0) := by decide

/-- V-A7. -/
theorem test_ldReg :
    peek (step (withRegs (running 0x8120) [(1, 0x12), (2, 0x34)])) (fun s => (s.reg 1, s.reg 2)) = some (0x34, 0x34) := by decide

/-- V-A8. -/
theorem test_orReg :
    peek (step (withRegs (running 0x8121) [(1, 0x55), (2, 0xAA), (0xF, 1)])) (fun s => (s.reg 1, s.reg 0xF)) = some (0xFF, 1) := by decide

/-- V-A9. -/
theorem test_andReg :
    peek (step (withRegs (running 0x8122) [(1, 0x55), (2, 0xAA), (0xF, 1)])) (fun s => (s.reg 1, s.reg 0xF)) = some (0, 1) := by decide

/-- V-A10. -/
theorem test_xorReg :
    peek (step (withRegs (running 0x8123) [(1, 0x55), (2, 0xFF)])) (fun s => s.reg 1) = some 0xAA := by decide

/-- V-A14. -/
theorem test_addReg :
    peek (step (withRegs (running 0x8124) [(1, 0xFF), (2, 0xFF)])) (fun s => (s.reg 1, s.reg 0xF)) = some (0xFE, 1) := by decide

/-- V-A18. -/
theorem test_addReg_into_vF :
    peek (step (withRegs (running 0x8F14) [(0xF, 0xF0), (1, 0x20)])) (fun s => (s.reg 1, s.reg 0xF)) = some (0x20, 1) := by decide

/-- V-A22. -/
theorem test_sub :
    peek (step (withRegs (running 0x8125) [(1, 0), (2, 1)])) (fun s => (s.reg 1, s.reg 0xF)) = some (0xFF, 0) := by decide

/-- V-A26. -/
theorem test_sub_from_vF :
    peek (step (withRegs (running 0x81F5) [(1, 5), (0xF, 1)])) (fun s => (s.reg 1, s.reg 0xF)) = some (4, 1) := by decide

/-- V-A27. -/
theorem test_shr :
    peek (step (withRegs (running 0x8126) [(1, 0xFF), (2, 0x12)])) (fun s => (s.reg 1, s.reg 0xF, s.reg 2)) = some (0x7F, 1, 0x12) := by decide

/-- V-A29. -/
theorem test_shr_ignores_y :
    peek (step (withRegs (running 0x8126) [(1, 6), (2, 0xFF)])) (fun s => (s.reg 1, s.reg 0xF)) = some (3, 0) := by decide

/-- V-A32. -/
theorem test_subn :
    peek (step (withRegs (running 0x8127) [(1, 5), (2, 3)])) (fun s => (s.reg 1, s.reg 0xF)) = some (0xFE, 0) := by decide

/-- V-A34. -/
theorem test_subn_equal :
    peek (step (withRegs (running 0x8127) [(1, 7), (2, 7)])) (fun s => (s.reg 1, s.reg 0xF)) = some (0, 1) := by decide

/-- V-A36. -/
theorem test_shl :
    peek (step (withRegs (running 0x812E) [(1, 0x40)])) (fun s => (s.reg 1, s.reg 0xF)) = some (0x80, 0) := by decide

/-- V-A37. -/
theorem test_shl_of_vF :
    peek (step (withRegs (running 0x8F0E) [(0xF, 0x80)])) (fun s => s.reg 0xF) = some 1 := by decide

/-- V-M2. -/
theorem test_ldI :
    peek (step (running 0xAFFF)) (fun s => s.I) = some 0x0FFF := by decide

/-- V-A40, whatever the free byte. -/
theorem test_rnd_masked_to_zero :
    peek (step (withRegs (running 0xC100) [(1, 0x77)])) (fun s => (s.pc, s.freeIndex)) = some (0x202, 1) := by decide

/-- V-D11. -/
theorem test_drw :
    peek (step (withBytes (withBytes (withRegs { running 0xD011 with I := 0x300 } [(0, 4), (1, 1), (0xF, 1)]) 0x300 [0xFF]) 0xF08 [0x01])) (fun s => (s.mem.read 0xF08, s.mem.read 0xF09, s.reg 0xF)) = some (0x0E, 0xF0, 1) := by decide

/-- V-D23. -/
theorem test_drw_over_its_source :
    peek (step (withBytes (withRegs { running 0xD012 with I := 0xF00 } [(0, 8)]) 0xF00 [0xFF, 0x0F])) (fun s => (s.mem.read 0xF00, s.mem.read 0xF01, s.mem.read 0xF09, s.reg 0xF)) = some (0xFF, 0xF0, 0xF0, 1) := by decide

/-- V-D4. -/
theorem test_drw_clipped :
    peek (step (withBytes (withRegs { running 0xD011 with I := 0x300 } [(0, 0x3C)]) 0x300 [0xFF])) (fun s => (s.mem.read 0xF00, s.mem.read 0xF07, s.mem.read 0xF08, s.reg 0xF)) = some (0, 0x0F, 0, 0) := by decide

/-- V-D19, off the screen. -/
theorem test_drw_out_of_range :
    peek (step (withRegs { running 0xD012 with I := 0xFFF } [(1, 0x28)])) (fun s => verdict s) = some (outOfRangeAt 0x1000) := by decide

/-- V-K3. -/
theorem test_skp :
    peek (step (withKeys (withRegs (running 0xE19E) [(1, 0xF)]) [0xF])) (fun s => s.pc) = some 0x204 := by decide

/-- V-K4. -/
theorem test_skp_bad_key :
    peek (step (withRegs (running 0xE19E) [(1, 0x10)])) (fun s => verdict s) = some (.faulted, .keyIndexOutOfRange, .key 0x10) := by decide

/-- V-K5. -/
theorem test_sknp :
    peek (step (withKeys (withRegs (running 0xE1A1) [(1, 4)]) [4])) (fun s => s.pc) = some 0x202 := by decide

/-- V-K6. -/
theorem test_sknp_not_held :
    peek (step (withRegs (running 0xE1A1) [(1, 4)])) (fun s => s.pc) = some 0x204 := by decide

/-- V-T1. -/
theorem test_ldFromDT :
    peek (step ({ running 0xF107 with DT := 0x3C })) (fun s => (s.reg 1, s.DT)) = some (0x3C, 0x3C) := by decide

/-- V-K8. -/
theorem test_ldKey_waits :
    peek (step (withRegs (running 0xF30A) [(3, 0x99)])) (fun s => (s.pc, s.reg 3, s.status)) = some (0x200, 0x99, .running) := by decide

/-- V-K9. -/
theorem test_ldKey_lowest :
    peek (step (withKeys (withRegs (running 0xF30A) [(3, 0x99)]) [7, 9])) (fun s => (s.pc, s.reg 3)) = some (0x202, 7) := by decide

/-- V-T2. -/
theorem test_ldDT :
    peek (step (withRegs (running 0xF115) [(1, 0x3C)])) (fun s => (s.DT, s.ST)) = some (0x3C, 0) := by decide

/-- V-T3. -/
theorem test_ldST :
    peek (step (withRegs (running 0xF118) [(1, 5)])) (fun s => (s.ST, s.DT)) = some (5, 0) := by decide

/-- V-M3. -/
theorem test_addI :
    peek (step (withRegs { running 0xF11E with I := 0x0FFF } [(1, 1)])) (fun s => (s.I, s.reg 0xF)) = some (0x1000, 0) := by decide

/-- V-M4. -/
theorem test_addI_wraps :
    peek (step (withRegs { running 0xF11E with I := 0xFFFF } [(1, 1)])) (fun s => s.I) = some 0 := by decide

/-- V-M7. -/
theorem test_ldFont :
    peek (step (withRegs (running 0xF029) [(0, 0xF)])) (fun s => s.I) = some 0x009B := by decide

/-- V-M9. -/
theorem test_ldFont_not_masked :
    peek (step (withRegs (running 0xF029) [(0, 0xFF)])) (fun s => s.I) = some 0x054B := by decide

/-- V-M10. -/
theorem test_bcd :
    peek (step (withRegs { running 0xF133 with I := 0x300 } [(1, 0x9C)])) (fun s => (s.mem.readAll 0x300 4, s.I)) = some ([1, 5, 6, 0], 0x300) := by decide

/-- V-M12. -/
theorem test_bcd_out_of_range :
    peek (step (withRegs { running 0xF133 with I := 0xFFE } [(1, 0x7B)])) (fun s => verdict s) = some (outOfRangeAt 0x1000) := by decide

/-- V-M22. -/
theorem test_store :
    peek (step (withRegs { running 0xF155 with I := 0x200 } [(0, 0x12), (1, 0x08)])) (fun s => (s.mem.readAll 0x200 3, s.pc)) = some ([0x12, 0x08, 0], 0x202) := by decide

/-- V-M17. -/
theorem test_store_out_of_range :
    peek (step ({ running 0xF055 with I := 0x1000 })) (fun s => verdict s) = some (outOfRangeAt 0x1000) := by decide

/-- V-M18. -/
theorem test_load :
    peek (step (withRegs (withBytes { running 0xF265 with I := 0x400 } 0x400 [1, 2, 3, 4]) [(3, 0x77)])) (fun s => (s.V.toList.take 4, s.I)) = some ([1, 2, 3, 0x77], 0x400) := by decide

/-- V-M21. -/
theorem test_load_out_of_range :
    peek (step ({ running 0xF165 with I := 0xFFF })) (fun s => verdict s) = some (outOfRangeAt 0x1000) := by decide

/-! ## Host transactions and well-formedness -/

/-- V-T6. -/
theorem test_tick :
    peek (transact .tick { State.reset with DT := 0xFF, ST := 1 }) (fun s => (s.DT, s.ST)) = some (0xFE, 0) := by decide

/-- V-H1. -/
theorem test_load_program :
    peek (transact (.loadProgram [0xA2, 0x0A, 0x60]) State.reset) (fun s => s.mem.readAll 0x200 4) = some [0xA2, 0x0A, 0x60, 0] := by decide

/-- V-H3, its last byte and the one after. -/
theorem test_load_font :
    peek (transact (.loadFont (List.replicate 80 0xF0)) State.reset) (fun s => (s.mem.read 0x4F, s.mem.read 0x50, s.mem.read 0x9F, s.mem.read 0xA0)) =
      some (0, 0xF0, 0xF0, 0) := by decide +kernel

/-- V-H5. -/
theorem test_status_and_reset :
    reply .statusRead { State.reset with status := .faulted } = .status .faulted (some (.decodeError, .nothing)) ∧
      peek (transact .reset { State.reset with status := .faulted }) (fun s => s.status) = some .running := by decide

/-- The check refuses a font of 79 bytes and takes 80 (R141). -/
theorem test_wellFormed_font :
    fontWellFormed (List.replicate 79 0) = false ∧ fontWellFormed (List.replicate 80 0) = true ∧
      refusal (transact (.loadFont (List.replicate 79 0)) State.reset) = some .fontLength := by decide

/-- V-H2: 3584 bytes are taken, 3585 refused (R142). -/
theorem test_wellFormed_image :
    imageWellFormed (List.replicate 3584 0) = true ∧ imageWellFormed (List.replicate 3585 0) = false := by
  constructor <;> simp only [imageWellFormed, List.length_replicate] <;> decide

/-- 0xFFF is the last address, 0x1000 is refused (R30, R143). -/
theorem test_wellFormed_address :
    addressWellFormed 0xFFF = true ∧ addressWellFormed 0x1000 = false ∧
      refusal (transact (.hostRead 0x1000) State.reset) = some .hostAddress := by decide

/-- The customary font is a font the loader takes (R141). -/
theorem test_customaryFont_length :
    fontWellFormed Config.customaryFont = true := by decide

/-- Writing a byte and then 0 over it leaves no pair: equal memories are equal lists. -/
theorem test_canonical_memory :
    Memory.write (Memory.write [] 0x300 7) 0x300 0 = [] ∧ Memory.wf (Memory.write [] 0x300 7) := by decide

/-! ## Witnesses: a state and operands that meet each statement's hypotheses, at the boundaries of its clauses -/

/-- A legal word, with an ignored `y`. -/
theorem witness_EncodeOfDecodeGivesTheWord :
    decode 0x81F6 = .ok (.shr 1 0xF) := by decide

/-- A legal word and an illegal one, neighbours. -/
theorem witness_WordDecodesToTheOneRowItMatches :
    decode 0x5120 = .ok (.seReg 1 2) ∧ decode 0x5121 = .error (.mode5Nibble 0x5121) := by decide

/-- A core not running; a fetch at 0xFFF; a legal and an illegal word at the last address 0xFFE. -/
theorem witness_StepFetchesAdvancesDecodesAndExecutes :
    ({ State.reset with status := .halted }).status ≠ .running ∧
    (State.reset.status = .running ∧ 0xFFE < (State.reset.setPc 0xFFF).pc.toNat) ∧
    ((State.reset.setPc 0xFFE).pc.toNat ≤ 0xFFE ∧ decode 0x0000 = .ok .halt ∧ decode 0x0001 = .error (.mode0Word 0x0001)) := by decide

/-- An empty stack, one entry, and a full stack. -/
theorem witness_RetPopsTheNewestReturnAddress :
    (withStack State.reset 0).sp.val = 0 ∧ (withStack State.reset 1).sp.val = (0 : Fin 16).val + 1 ∧
      (withStack State.reset 16).sp.val = (15 : Fin 16).val + 1 := by decide

/-- A full stack, room for one more, and an empty stack. -/
theorem witness_CallPushesTheAdvancedPcAndJumps :
    (withStack State.reset 16).sp.val = 16 ∧ (withStack State.reset 15).sp.val = (15 : Fin 16).val ∧ State.reset.sp.val = (0 : Fin 16).val := by decide

/-- The subroutine that returns at once, with room for one call. -/
theorem witness_CallThenRetReturnsAfterTheCall :
    ∃ t, (withStack State.reset 15).sp.val < 16 ∧ exec (.call 0x300) (withStack State.reset 15) = .next t ∧ t.sp = t.sp ∧
      ∀ k : Fin 16, k.val < t.sp.val → t.stack.get k = t.stack.get k := 
  ⟨_, by decide, rfl, rfl, fun _ _ => rfl⟩

/-- A nonzero trailing nibble. -/
theorem witness_SkipsOnTwoRegisters :
    (1 : Fin 16) ≠ 0 := by decide

/-- For the forms that write VF: a destination other than VF, and a register other than both. -/
theorem witness_flag_destination :
    (14 : Reg) ≠ 15 ∧ (0 : Reg) ≠ 14 ∧ (0 : Reg) ≠ 15 := by decide

/-- A bit clear in the immediate. -/
theorem witness_RandomIsMaskedByTheImmediate :
    (0 : Nat) < 8 ∧ (0xFE : Byte).getLsbD 0 = false := by decide

/-- The last I that stores and the first that raises. -/
theorem witness_BcdStoresThreeDigits :
    (State.reset.setI 0xFFD).I.toNat ≤ 0xFFD ∧ 0xFFD < (State.reset.setI 0xFFE).I.toNat := by decide

/-- The last store that fits and the first that does not. -/
theorem witness_StoreWritesV0ToVx :
    (State.reset.setI 0xFF0).I.toNat + (15 : Reg).val ≤ 0xFFF ∧ 0xFFF < (State.reset.setI 0xFF1).I.toNat + (15 : Reg).val ∧ (0 : Reg) < 15 := by decide

/-- The last load that fits and the first that does not. -/
theorem witness_LoadReadsV0ToVx :
    (State.reset.setI 0xFFF).I.toNat + (0 : Reg).val ≤ 0xFFF ∧ 0xFFF < (State.reset.setI 0xFFF).I.toNat + (1 : Reg).val ∧ (0 : Reg) < 1 := by decide

/-- All sixteen registers, at the top of memory. -/
theorem witness_StoreThenLoadRestoresTheRegisters :
    ∃ t, (State.reset.setI 0xFF0).I.toNat + (15 : Reg).val ≤ 0xFFF ∧ exec (.store 15) (State.reset.setI 0xFF0) = .next t ∧
      t.I = (State.reset.setI 0xFF0).I ∧ ∀ k : Reg, k ≤ 15 → t.mem.read (0xFF0 + k.val) = t.mem.read (0xFF0 + k.val) := 
  ⟨effect (.store 15) (State.reset.setI 0xFF0), by decide, exec_of_no_trap (by decide), rfl, fun _ _ => rfl⟩

/-- Two registers stored over the halt word at `pc`. -/
theorem witness_StoredWordIsTheNextInstruction :
    ∃ t, (1 : Nat) ≤ (1 : Reg).val ∧ ((withRegs State.reset [(0, 0x12)]).setI 0x200).status = .running ∧
      ((withRegs State.reset [(0, 0x12)]).setI 0x200).I = ((withRegs State.reset [(0, 0x12)]).setI 0x200).pc ∧
      ((withRegs State.reset [(0, 0x12)]).setI 0x200).I.toNat + (1 : Reg).val ≤ 0xFFF ∧
      exec (.store 1) ((withRegs State.reset [(0, 0x12)]).setI 0x200) = .next t ∧
      decode (Word.ofBytes (((withRegs State.reset [(0, 0x12)]).setI 0x200).reg 0) (((withRegs State.reset [(0, 0x12)]).setI 0x200).reg 1)) =
        .ok (.jp 0x200) := 
  ⟨effect (.store 1) ((withRegs State.reset [(0, 0x12)]).setI 0x200), by decide, by decide, by decide, by decide, exec_of_no_trap (by decide), by decide⟩

/-- The last valid address, the first invalid one, and a canonical memory. -/
theorem witness_ByteAccessIsCheckedAndExact :
    (0xFFF : Nat) ≤ 0xFFF ∧ (0xFFF : Nat) < 0x1000 ∧ Memory.wf (Memory.write [] 0xFFF 1) := by decide

/-- The last address of a 16-bit access and the first that raises. -/
theorem witness_WordAccessIsBigEndian :
    (0xFFE : Nat) ≤ 0xFFE ∧ (0xFFE : Nat) < 0xFFF := by decide

/-- The corner of the screen, which is bit 0 of the last byte. -/
theorem witness_PixelsAreTheBitsOfTheFramebuffer :
    (63 : Nat) ≤ 63 ∧ (31 : Nat) ≤ 31 ∧ fbAddr 63 31 = 0xFFF ∧ fbMask 63 31 = 0x01 := by decide

/-- The longest sprite that ends just below the framebuffer. -/
theorem witness_DrawFlipsThePixelsTheSpriteCovers :
    (State.reset.setI 0xEF1).I.toNat + (15 : Fin 16).val ≤ 0xF00 := by decide

/-- One row more, at the last address; the first row past it raises. -/
theorem witness_DrawGoesRowByRow :
    (1 : Fin 16).val = (0 : Fin 16).val + 1 ∧ (State.reset.setI 0xFFF).I.toNat + (0 : Fin 16).val ≤ 0xFFF ∧
      0 < (2 : Fin 16).val ∧ 0xFFF < (State.reset.setI 0xFFF).I.toNat + (2 : Fin 16).val - 1 := by decide

/-- A sprite just below the framebuffer, drawn once. -/
theorem witness_DrawingTwiceRestoresMemory :
    ∃ t, (0 : Reg) ≠ 15 ∧ (1 : Reg) ≠ 15 ∧ (withBytes (State.reset.setI 0xEFF) 0xEFF [0xC0]).mem.wf ∧
      (withBytes (State.reset.setI 0xEFF) 0xEFF [0xC0]).I.toNat + (1 : Fin 16).val ≤ 0xF00 ∧
      exec (.drw 0 1 1) (withBytes (State.reset.setI 0xEFF) 0xEFF [0xC0]) = .next t := 
  ⟨effect (.drw 0 1 1) (withBytes (State.reset.setI 0xEFF) 0xEFF [0xC0]), by decide, by decide, by decide, by decide, exec_of_no_trap (by decide)⟩

/-- The greatest key index and the least that raises. -/
theorem witness_KeySkipsTestTheNamedKey :
    ((withRegs State.reset [(1, 15)]).reg 1).toNat = (15 : Fin 16).val ∧ 15 < ((withRegs State.reset [(1, 16)]).reg 1).toNat := by decide

/-- No key held; key 15 the only one held; a running core at the wait. -/
theorem witness_KeyWaitTakesTheLowestHeldKey :
    (∀ k, State.reset.keys.get k = false) ∧
      ((withKeys State.reset [15]).keys.get 15 = true ∧ ∀ j, j < 15 → (withKeys State.reset [15]).keys.get j = false) ∧
      ((running 0xF30A).status = .running ∧ (running 0xF30A).pc.toNat ≤ 0xFFE ∧
        decode (Word.ofBytes ((running 0xF30A).mem.read 0x200) ((running 0xF30A).mem.read 0x201)) = .ok (.ldKey 3) ∧
        ∀ k, (running 0xF30A).keys.get k = false) := by decide

/-- A form that raises, and the same form one entry later. -/
theorem witness_FormsRaiseExactlyTheListedFaults :
    trapIn .ret State.reset = some .underflow ∧ trapIn .ret (withStack State.reset 1) = none ∧ (withStack State.reset 1).status ≠ .faulted := by decide

/-- A jump, which is none of the forms named for the registers and for the other elements but `pc`; and the load of `I`,
which is none of those named for `pc`. -/
theorem witness_OnlyTheNamedFormsChangeEachElement :
    (exec (.jp 0x300) State.reset = .next (State.reset.setPc 0x300) ∧ trapIn (.jp 0x300) State.reset = none ∧
      (∀ nnn, Instr.jp 0x300 ≠ .ldI nnn) ∧
      (∀ x nn, Instr.jp 0x300 ≠ .ldImm x nn ∧ Instr.jp 0x300 ≠ .addImm x nn ∧ Instr.jp 0x300 ≠ .rnd x nn) ∧
      (∀ x y, Instr.jp 0x300 ≠ .ldReg x y ∧ Instr.jp 0x300 ≠ .orReg x y ∧ Instr.jp 0x300 ≠ .andReg x y ∧
        Instr.jp 0x300 ≠ .xorReg x y) ∧
      (∀ x y, Instr.jp 0x300 ≠ .addReg x y ∧ Instr.jp 0x300 ≠ .sub x y ∧ Instr.jp 0x300 ≠ .shr x y ∧
        Instr.jp 0x300 ≠ .subn x y ∧ Instr.jp 0x300 ≠ .shl x y) ∧
      (∀ x y n, Instr.jp 0x300 ≠ .drw x y n) ∧
      (∀ x, Instr.jp 0x300 ≠ .ldFromDT x ∧ Instr.jp 0x300 ≠ .ldKey x ∧ Instr.jp 0x300 ≠ .load x)) ∧
    (exec (.ldI 0x300) State.reset = .next (State.reset.setI 0x300) ∧ trapIn (.ldI 0x300) State.reset = none ∧
      Instr.ldI 0x300 ≠ .ret ∧
      (∀ nnn, Instr.ldI 0x300 ≠ .jp nnn ∧ Instr.ldI 0x300 ≠ .call nnn ∧ Instr.ldI 0x300 ≠ .jpV0 nnn) ∧
      (∀ x nn, Instr.ldI 0x300 ≠ .seImm x nn ∧ Instr.ldI 0x300 ≠ .sneImm x nn) ∧
      (∀ x y, Instr.ldI 0x300 ≠ .seReg x y ∧ Instr.ldI 0x300 ≠ .sneReg x y) ∧
      (∀ x, Instr.ldI 0x300 ≠ .skp x ∧ Instr.ldI 0x300 ≠ .sknp x ∧ Instr.ldI 0x300 ≠ .ldKey x)) := by
  refine ⟨⟨rfl, rfl, ?_, ?_, ?_, ?_, ?_, ?_⟩, rfl, rfl, ?_, ?_, ?_, ?_, ?_⟩ <;> simp

/-- The load of another register, none of the forms shut out. -/
theorem witness_OnlyTheFlagFormsWriteVFImplicitly :
    exec (.ldImm 0 7) State.reset = .next (State.reset.setV 0 7) ∧ trapIn (.ldImm 0 7) State.reset = none ∧
      (∀ x y, Instr.ldImm 0 7 ≠ .addReg x y ∧ Instr.ldImm 0 7 ≠ .sub x y ∧ Instr.ldImm 0 7 ≠ .shr x y ∧ Instr.ldImm 0 7 ≠ .subn x y ∧
        Instr.ldImm 0 7 ≠ .shl x y) ∧ (∀ x y n, Instr.ldImm 0 7 ≠ .drw x y n) ∧
      (∀ nn y, Instr.ldImm 0 7 ≠ .ldImm 15 nn ∧ Instr.ldImm 0 7 ≠ .addImm 15 nn ∧ Instr.ldImm 0 7 ≠ .rnd 15 nn ∧
        Instr.ldImm 0 7 ≠ .ldReg 15 y ∧ Instr.ldImm 0 7 ≠ .orReg 15 y ∧ Instr.ldImm 0 7 ≠ .andReg 15 y ∧
        Instr.ldImm 0 7 ≠ .xorReg 15 y ∧ Instr.ldImm 0 7 ≠ .ldFromDT 15 ∧ Instr.ldImm 0 7 ≠ .ldKey 15 ∧ Instr.ldImm 0 7 ≠ .load 15) := by
  refine ⟨rfl, rfl, ?_, ?_, ?_⟩ <;> simp

/-- The reset state, which halts, and a running one that does not. -/
theorem witness_OnlyTheHaltWordHalts :
    State.reset.status = .running ∧ peek (step State.reset) (fun s => s.status) = some .halted ∧
      (running 0x6A7B).status = .running ∧ peek (step (running 0x6A7B)) (fun s => s.status) = some .running := by decide

/-- The invariant of a state that is not running: nothing written, nothing live. -/
theorem inv_stopped (st : Status) : State.Inv { State.reset with status := st, initialising := false } :=
  ⟨wf_reset, fun _ => (by decide : State.reset.pc.toNat ≤ 0x10FE), fun _ k hk => by simp [State.reset] at hk, fun h => by cases h⟩

/-- A faulted and a halted state that meet the invariant, and a transaction other than `reset`. -/
theorem witness_OnlyResetLeavesHaltedAndFaulted :
    State.Inv { State.reset with status := .faulted, initialising := false } ∧
      State.Inv { State.reset with status := .halted, initialising := false } ∧ Transaction.fbRead ≠ .reset ∧
      transact .fbRead { State.reset with status := .halted, initialising := false } =
        .next { State.reset with status := .halted, initialising := false } := 
  ⟨inv_stopped _, inv_stopped _, by decide, rfl⟩

/-- A step that does not fault, and a transaction that is none of the three. -/
theorem witness_StepMovesATimerOnlyByItsOwnForm :
    (State.reset.status = .running ∧ peek (step State.reset) (fun s => s.status) = some .halted) ∧
      (Transaction.fbRead ≠ .tick ∧ Transaction.fbRead ≠ .step ∧ Transaction.fbRead ≠ .reset ∧ State.reset.status ≠ .faulted ∧
        transact .fbRead State.reset = .next State.reset) := 
  ⟨by decide, by decide, by decide, by decide, by decide, rfl⟩

/-- A state with the invariant, and its step. -/
theorem witness_StepKeepsTheInvariant :
    State.Inv { State.reset with status := .running, initialising := false } ∧
      ∃ t, step { State.reset with status := .running, initialising := false } = .next t := 
  ⟨inv_stopped _, step_next _⟩

/-- A state with the invariant, and what a transaction makes of it. -/
theorem witness_TransactionsKeepTheInvariant :
    State.Inv { State.reset with status := .halted, initialising := false } ∧
      transact .fbRead { State.reset with status := .halted, initialising := false } =
        .next { State.reset with status := .halted, initialising := false } := 
  ⟨inv_stopped _, rfl⟩

/-- A state with the invariant, and what a schedule makes of it. -/
theorem witness_EveryScheduleKeepsPcAndStackInRange :
    State.Inv { State.reset with status := .halted, initialising := false } ∧
      runSchedule [.fbRead] { State.reset with status := .halted, initialising := false } =
        .next { State.reset with status := .halted, initialising := false } := 
  ⟨inv_stopped _, rfl⟩

/-- Two running states that differ in a dead stack entry, the cause and its advisory information. -/
theorem witness_DeadStackEntriesAndUnsetCauseHaveNoInfluence :
    State.SameLive State.reset { State.reset with stack := Vector.replicate 16 7, cause := .stackOverflow, advisory := .key 3 } := 
  ⟨rfl, rfl, rfl, rfl, fun k hk => by simp [State.reset] at hk, rfl, rfl, rfl, rfl, rfl, rfl, rfl, fun h => by cases h⟩

/-- A state of each clause. -/
theorem witness_SetKeysReplacesAllSixteen :
    State.reset.status ≠ .faulted ∧ ({ State.reset with status := .faulted }).status = .faulted := by decide

/-- A halted core ticks. -/
theorem witness_TickCountsBothTimersDownToZero :
    ({ State.reset with status := .halted }).status ≠ .faulted := by decide

/-- The lengths and addresses at the edges, before and after the first step. -/
theorem witness_LoadersWriteTheirBytesDuringInitialisation :
    State.reset.initialising = true ∧ (List.replicate 80 (0 : Byte)).length = 80 ∧ (List.replicate 81 (0 : Byte)).length ≠ 80 ∧
      (List.replicate 3584 (0 : Byte)).length ≤ 3584 ∧ 3584 < (List.replicate 3585 (0 : Byte)).length ∧ (0xFFF : Nat) ≤ 0xFFF ∧
      (0xFFF : Nat) < 0x1000 ∧ peek (step State.reset) (fun s => s.initialising) = some false := by
  simp only [List.length_replicate]
  decide

/-- The last valid address and the first invalid one; a faulted state and another. -/
theorem witness_HostReadsReturnWhatTheCoreHolds :
    (0xFFF : Nat) ≤ 0xFFF ∧ (0xFFF : Nat) < 0x1000 ∧ ({ State.reset with status := .faulted }).status = .faulted ∧ State.reset.status ≠ .faulted := by decide

/-- The longest image, whose first word is a jump. -/
theorem witness_FirstStepRunsTheLoadedProgram :
    (List.replicate 3582 (0 : Byte)).length + 2 ≤ 3584 ∧ decode (Word.ofBytes 0x12 0x00) = .ok (.jp 0x200) := by
  simp only [List.length_replicate]
  decide

end Sys2Proof.Tests
end

/-! # The family of spec/40_step_cycle.md

SUPPORT. What the effects and the host's transactions leave unchanged, and from that the statements on HALT (R74) and on
the timers (R71). -/
namespace Sys2Proof.Machine

/-! ## Frames of the effects that branch -/

/-- A skip, taken or not, changes `pc` only (R84 to R87, R133, R134). -/
theorem skipIf_frame (c : Bool) (s : State) : skipIf c s = { s with pc := (skipIf c s).pc } := by
  cases c <;> rfl

/-- A return changes `pc` and the number of live stack entries only (R80). -/
theorem effect_ret_frame (s : State) :
    effect .ret s = { s with pc := (effect .ret s).pc, sp := (effect .ret s).sp } := by
  by_cases h : s.sp.val = 0
  · simp only [effect, State.pop_error h]
  · simp only [effect, State.pop_ok (Nat.pos_of_ne_zero h), State.setPc]

/-- A call changes `pc` and the stack only (R82). -/
theorem effect_call_frame (nnn : Addr12) (s : State) :
    effect (.call nnn) s = { s with
      pc := (effect (.call nnn) s).pc, sp := (effect (.call nnn) s).sp, stack := (effect (.call nnn) s).stack } := by
  by_cases h : s.sp.val < 16
  · simp only [effect, State.push_ok _ h, State.setPc]
  · simp only [effect, State.push_error s.pc (show s.sp.val = 16 by omega)]

/-- A wait for a key changes `pc` and the registers only (R135). -/
theorem effect_ldKey_frame (x : Reg) (s : State) :
    effect (.ldKey x) s = { s with pc := (effect (.ldKey x) s).pc, V := (effect (.ldKey x) s).V } := by
  cases h : s.lowestKey <;> simp only [effect, h, State.setPc, State.setV]

/-! ## Timers -/

/-- An effect moves DT only as `Fx15` and ST only as `Fx18`, each to the register the instruction names (R71). -/
theorem effect_timers (i : Instr) (s : State) :
    ((effect i s).DT = s.DT ∨ ∃ x, i = .ldDT x ∧ (effect i s).DT = s.reg x) ∧
    ((effect i s).ST = s.ST ∨ ∃ x, i = .ldST x ∧ (effect i s).ST = s.reg x) := by
  cases i
  case ldDT x => exact ⟨.inr ⟨x, rfl, rfl⟩, .inl rfl⟩
  case ldST x => exact ⟨.inl rfl, .inr ⟨x, rfl, rfl⟩⟩
  case ret => rw [effect_ret_frame]; exact ⟨.inl rfl, .inl rfl⟩
  case call => rw [effect_call_frame]; exact ⟨.inl rfl, .inl rfl⟩
  case ldKey => rw [effect_ldKey_frame]; exact ⟨.inl rfl, .inl rfl⟩
  case seImm | sneImm | seReg | sneReg | skp | sknp =>
    rw [effect, skipIf_frame]; exact ⟨.inl rfl, .inl rfl⟩
  all_goals exact ⟨.inl rfl, .inl rfl⟩

/-- A step of a running core that ends short of a fault is the effect of the instruction it fetched (R70). -/
theorem step_effect {s t : State} (hr : s.status = .running) (h : step s = .next t) (ht : t.status ≠ .faulted) :
    ∃ i, decode s.wordAtPc = .ok i ∧ t = effect i (advance s) := by
  rcases step_cases h with ⟨hn, -⟩ | ⟨-, tr, rfl, -⟩ | ⟨-, i, hi, -, rfl⟩
  · exact absurd hr hn
  · exact absurd (State.takeFault_status (advance s) tr) ht
  · exact ⟨i, ((fetchInstr_ok_iff s i).1 hi).2, rfl⟩

/-! ## Frame of the host's transactions -/

/-- A write of the host that passes its two checks (R141 to R143) changes memory only, and one that fails one is refused. -/
theorem eq_setMem_of_checked {s u : State} {m : Memory} {a b : Refusal} {closed ok : Bool}
    (h : (if closed then .refused a else if ok then .next (s.setMem m) else .refused b : Result) = .next u) :
    u = s.setMem m := by
  cases closed <;> cases ok <;> cases h
  rfl

/-- `set_keys` on a core that is not FAULTED (R144). -/
theorem setKeys_of_not_faulted {s : State} (k : Vector Bool 16) (hs : s.status ≠ .faulted) :
    setKeys k s = .next (s.setKeys k) := by
  cases h : s.status with
  | faulted => exact absurd h hs
  | running | halted => simp only [setKeys, h]

/-- On a core that is not FAULTED, every transaction but `tick`, `step` and `reset` changes memory and the keys at most
(R141 to R144, R146, R147). -/
theorem transact_frame {tr : Transaction} {s u : State} (htick : tr ≠ .tick) (hstep : tr ≠ .step) (hreset : tr ≠ .reset)
    (hs : s.status ≠ .faulted) (h : transact tr s = .next u) : u = { s with mem := u.mem, keys := u.keys } := by
  cases tr
  case tick => exact absurd rfl htick
  case step => exact absurd rfl hstep
  case reset => exact absurd rfl hreset
  case fbRead | statusRead => cases h; rfl
  case loadFont bytes => rw [eq_setMem_of_checked h]; rfl
  case loadProgram bytes => rw [eq_setMem_of_checked h]; rfl
  case hostWrite addr b => rw [eq_setMem_of_checked h]; rfl
  case hostRead addr =>
    simp only [transact, hostRead] at h
    split at h <;> cases h
    rfl
  case setKeys k =>
    rw [transact, setKeys_of_not_faulted k hs] at h
    cases h; rfl

/-! ## The statements -/

/-- Settles O7: HALT's arm of `exec` writes the status and no other field. -/
theorem haltSetsTheStatusAndNothingElse : Obligations.HaltSetsTheStatusAndNothingElse :=
  ⟨by decide, fun s => exec_of_no_trap (i := .halt) (s := s) rfl⟩

/-- Settles O44: a step is the effect of the instruction at `pc`, whose timers `effect_timers` gives; the host's
transactions keep the timers by their frame. -/
theorem stepMovesATimerOnlyByItsOwnForm : Obligations.StepMovesATimerOnlyByItsOwnForm := by
  constructor
  · intro s t hr h ht
    obtain ⟨i, hi, rfl⟩ := step_effect hr h ht
    exact ⟨i, hi, effect_timers i (advance s)⟩
  · intro tr s u htick hstep hreset hs h
    rw [transact_frame htick hstep hreset hs h]
    exact ⟨rfl, rfl⟩

end Sys2Proof.Machine

/-! # The family of spec/41_control_flow.md

SUPPORT. What the words of the jumps and the skips decode to, and their effects field by field, and from that the
statements on RET (R80), JP (R81) and the skips that compare (R84 to R87). -/
namespace Sys2Proof

/-! ## Words with their fields written as a sum -/

/-- A statement's sum of weighted fields is the format with `x` and `nn` (R52). -/
theorem ofNat_eq_formatXN (mode : Nat) (x : Reg) (nn : Byte) :
    BitVec.ofNat 16 (mode * 4096 + 0x100 * x.val + nn.toNat) = formatXN mode x nn := by
  rw [formatXN, Nat.mul_comm 0x100]

/-- A statement's sum of weighted fields is the format with `x`, `y` and `n` (R52). -/
theorem ofNat_eq_formatXYN (mode : Nat) (x y n : Fin 16) :
    BitVec.ofNat 16 (mode * 4096 + 0x100 * x.val + 0x10 * y.val + n.val) = formatXYN mode x y n := by
  rw [formatXYN, Nat.mul_comm 0x100, Nat.mul_comm 0x10]

/-! ## Decoding them (R55) -/

theorem decode_jp (nnn : Addr12) : decode (formatA 0x1 nnn) = .ok (.jp nnn) := by
  simp only [decode, fieldMode_formatA, fieldNNN_formatA, Nat.reduceLT]

theorem decode_seImm (x : Reg) (nn : Byte) : decode (formatXN 0x3 x nn) = .ok (.seImm x nn) := by
  simp only [decode, fieldMode_formatXN, fieldX_formatXN, fieldNN_formatXN, Nat.reduceLT]

theorem decode_sneImm (x : Reg) (nn : Byte) : decode (formatXN 0x4 x nn) = .ok (.sneImm x nn) := by
  simp only [decode, fieldMode_formatXN, fieldX_formatXN, fieldNN_formatXN, Nat.reduceLT]

/-- Mode 5 is SE Vx, Vy when the trailing nibble is 0, and illegal otherwise (R56). -/
theorem decode_mode5 (x y n : Fin 16) :
    decode (formatXYN 0x5 x y n) =
      if n = 0 then .ok (.seReg x y) else .error (.mode5Nibble (formatXYN 0x5 x y n)) := by
  simp only [decode, fieldMode_formatXYN, fieldX_formatXYN, fieldY_formatXYN, fieldN_formatXYN, Nat.reduceLT]

/-- Mode 9 is SNE Vx, Vy when the trailing nibble is 0, and illegal otherwise (R56). -/
theorem decode_mode9 (x y n : Fin 16) :
    decode (formatXYN 0x9 x y n) =
      if n = 0 then .ok (.sneReg x y) else .error (.mode9Nibble (formatXYN 0x9 x y n)) := by
  simp only [decode, fieldMode_formatXYN, fieldX_formatXYN, fieldY_formatXYN, fieldN_formatXYN, Nat.reduceLT]

namespace Machine

/-! ## Effects -/

@[simp] theorem toNat_zext12 (nnn : Addr12) : (zext12 nnn).toNat = nnn.toNat := by
  have := nnn.isLt
  simp only [zext12, BitVec.toNat_ofNat]; omega

/-- A return with `k + 1` live entries: entry `k` is the newest, and the stack's entries stay as they are (R80). -/
theorem effect_ret_of_sp {s : State} {k : Fin 16} (h : s.sp.val = k.val + 1) :
    effect .ret s = { s with pc := s.stack.get k, sp := k.castSucc } := by
  simp [effect, State.pop_ok (show 0 < s.sp.val by omega), State.setPc, Vector.get_eq_getElem, h, Fin.ext_iff]

/-- A skip on equality (R84, R86). -/
theorem skipIf_beq (a b : Byte) (s : State) :
    skipIf (a == b) s = if a = b then { s with pc := s.pc + 2 } else s := by
  by_cases h : a = b <;> simp [skipIf_eq, State.setPc, h]

/-- A skip on inequality (R85, R87). -/
theorem skipIf_bne (a b : Byte) (s : State) :
    skipIf (a != b) s = if a ≠ b then { s with pc := s.pc + 2 } else s := by
  by_cases h : a = b <;> simp [skipIf_eq, State.setPc, h]

/-- An instruction that R151 lists no fault for completes with the state its effect is shown to be. -/
theorem exec_eq_next {i : Instr} {s t : State} (hn : trapIn i s = none) (h : effect i s = t) : exec i s = .next t := by
  rw [exec_of_no_trap hn, h]

/-! ## The statements -/

/-- Settles O8: with no live entry `trapIn` lists the underflow; else the effect is `effect_ret_of_sp`. -/
theorem retPopsTheNewestReturnAddress : Obligations.RetPopsTheNewestReturnAddress := by
  refine ⟨by decide, fun s => ⟨fun h0 => faultsWith_of_trap (if_pos h0), fun k hk => ?_⟩⟩
  have hn : trapIn .ret s = none := if_neg (by omega)
  exact ⟨_, exec_eq_next hn (effect_ret_of_sp hk), rfl, rfl, fun _ _ => rfl, rfl⟩

/-- Settles O9: the effect writes the zero-extended immediate to `pc` and nothing else. -/
theorem jumpSetsPcToTheImmediate : Obligations.JumpSetsPcToTheImmediate :=
  fun nnn _ => ⟨decode_jp nnn, _, exec_of_no_trap rfl, toNat_zext12 nnn, rfl⟩

/-- Settles O13: the words are the format with `x` and `nn`, and the effects are skips on the comparison. -/
theorem skipsOnAnImmediate : Obligations.SkipsOnAnImmediate := fun x nn s =>
  ⟨(congrArg decode (ofNat_eq_formatXN 0x3 x nn)).trans (decode_seImm x nn),
   (congrArg decode (ofNat_eq_formatXN 0x4 x nn)).trans (decode_sneImm x nn),
   exec_eq_next rfl (skipIf_beq (s.reg x) nn s),
   exec_eq_next rfl (skipIf_bne (s.reg x) nn s)⟩

/-- Settles O14: modes 5 and 9 are legal exactly at trailing nibble 0, and the effects are skips on the comparison. -/
theorem skipsOnTwoRegisters : Obligations.SkipsOnTwoRegisters := by
  intro x y s
  have word5 (n : Fin 16) := (congrArg decode (ofNat_eq_formatXYN 0x5 x y n)).trans (decode_mode5 x y n)
  have word9 (n : Fin 16) := (congrArg decode (ofNat_eq_formatXYN 0x9 x y n)).trans (decode_mode9 x y n)
  refine ⟨word5 0, word9 0, fun n hn => ⟨⟨_, (word5 n).trans (if_neg hn)⟩, ⟨_, (word9 n).trans (if_neg hn)⟩⟩, ?_, ?_⟩
  · exact exec_eq_next rfl (skipIf_beq (s.reg x) (s.reg y) s)
  · exact exec_eq_next rfl (skipIf_bne (s.reg x) (s.reg y) s)

end Machine
end Sys2Proof

/-! # The family of spec/42_load_and_alu.md

SUPPORT. What the words of the immediate loads, the register sums and differences and the left shift decode to, what each
flag is as a number, and the one shape every form that writes the flag has, and from that the statements on LD and ADD
with an immediate (R90, R91), ADD and SUB of registers (R96, R97) and SHL (R100). -/
namespace Sys2Proof

/-! ## Words of modes 6, 7 and 8, and decoding them (R54, R55) -/

/-- A statement's sum with the sub-opcode in its first number is the format with `x`, `y` and `n` (R52). -/
theorem ofNat_subOpcode_eq_formatXYN (mode : Nat) (x y n : Fin 16) :
    BitVec.ofNat 16 (mode * 4096 + n.val + 0x100 * x.val + 0x10 * y.val) = formatXYN mode x y n := by
  rw [← ofNat_eq_formatXYN, Nat.add_right_comm _ n.val, Nat.add_right_comm _ n.val]

theorem decode_ldImm (x : Reg) (nn : Byte) : decode (formatXN 0x6 x nn) = .ok (.ldImm x nn) := by
  simp only [decode, fieldMode_formatXN, fieldX_formatXN, fieldNN_formatXN, Nat.reduceLT]

theorem decode_addImm (x : Reg) (nn : Byte) : decode (formatXN 0x7 x nn) = .ok (.addImm x nn) := by
  simp only [decode, fieldMode_formatXN, fieldX_formatXN, fieldNN_formatXN, Nat.reduceLT]

/-- Mode 8 dispatches on the sub-opcode (R55). -/
theorem decode_mode8 (x y n : Fin 16) : decode (formatXYN 0x8 x y n) = decodeMode8 (formatXYN 0x8 x y n) := by
  simp only [decode, fieldMode_formatXYN, Nat.reduceLT]

theorem decode_addReg (x y : Reg) : decode (formatXYN 0x8 x y 0x4) = .ok (.addReg x y) := by
  simp [decode_mode8, decodeMode8, fieldX_formatXYN, fieldY_formatXYN, fieldN_formatXYN]

theorem decode_sub (x y : Reg) : decode (formatXYN 0x8 x y 0x5) = .ok (.sub x y) := by
  simp [decode_mode8, decodeMode8, fieldX_formatXYN, fieldY_formatXYN, fieldN_formatXYN]

theorem decode_shl (x y : Reg) : decode (formatXYN 0x8 x y 0xE) = .ok (.shl x y) := by
  simp [decode_mode8, decodeMode8, fieldX_formatXYN, fieldY_formatXYN, fieldN_formatXYN]

namespace Machine

/-! ## The flags as numbers (R12) -/

theorem toNat_flagByte (b : Bool) : (flagByte b).toNat = if b then 1 else 0 := by
  cases b <;> rfl

theorem toNat_carryFlag (a b : Byte) : (carryFlag a b).toNat = if a.toNat + b.toNat > 255 then 1 else 0 := by
  simp only [carryFlag, toNat_flagByte, decide_eq_true_eq, gt_iff_lt]

theorem toNat_noBorrowFlag (a b : Byte) : (noBorrowFlag a b).toNat = if a.toNat ≥ b.toNat then 1 else 0 := by
  simp only [noBorrowFlag, toNat_flagByte, decide_eq_true_eq, ge_iff_le]

/-- Bit 7 of a byte is its quotient by 128 (R100). -/
theorem toNat_shiftedOutHigh (a : Byte) : (shiftedOutHigh a).toNat = a.toNat / 128 := by
  have := a.isLt
  simp only [shiftedOutHigh, toNat_flagByte, ← BitVec.testBit_toNat, Nat.testBit_eq_decide_div_mod_eq, decide_eq_true_eq]
  split <;> omega

/-! ## The results as numbers (R102) -/

/-- A difference modulo 256, written with a minuend that is large enough for natural subtraction. -/
theorem toNat_sub_byte (a b : Byte) : (a - b).toNat = (a.toNat + 256 - b.toNat) % 256 := by
  have := b.isLt
  rw [BitVec.toNat_sub]; congr 1; omega

/-- A left shift by one doubles modulo 256. -/
theorem toNat_shiftLeft_one (a : Byte) : (a <<< 1).toNat = 2 * a.toNat % 256 := by
  rw [BitVec.toNat_shiftLeft, Nat.shiftLeft_eq, Nat.mul_comm]

/-! ## The shapes of the register forms -/

/-- An instruction that only writes one register leaves the other registers and every other field as they are. -/
theorem exec_setV_frame {i : Instr} {s : State} {x : Reg} {v : Byte} (h : exec i s = .next (s.setV x v)) :
    ∃ t, exec i s = .next t ∧ t.reg x = v ∧ (∀ r, r ≠ x → t.reg r = s.reg r) ∧ t = { s with V := t.V } :=
  ⟨_, h, s.reg_setV_same x v, fun _ hr => s.reg_setV_ne v hr, rfl⟩

/-- A form that writes a result and then the flag leaves the flag `f` in VF, the result `v` in a destination that is not
VF, and the other registers and every other field as they are (R12). -/
theorem exec_resultAndFlag_frame {i : Instr} {s : State} {x : Reg} {result flag : Byte} {v f : Nat}
    (h : exec i s = .next (s.setResultAndFlag x result flag)) (hf : flag.toNat = f) (hv : result.toNat = v) :
    ∃ t, exec i s = .next t ∧ (t.reg 15).toNat = f ∧ (x ≠ 15 → (t.reg x).toNat = v) ∧
      (∀ r, r ≠ x → r ≠ 15 → t.reg r = s.reg r) ∧ t = { s with V := t.V } := by
  refine ⟨_, h, ?_, fun hx => ?_, fun r hr hF => ?_, rfl⟩
  · rw [State.reg_setResultAndFlag, if_pos rfl, hf]
  · rw [State.reg_setResultAndFlag, if_neg hx, if_pos rfl, hv]
  · rw [State.reg_setResultAndFlag, if_neg hF, if_neg hr]

/-! ## The statements -/

/-- Settles O15: both forms write the destination and nothing else, the sum being `BitVec` addition. -/
theorem loadAndAddImmediate : Obligations.LoadAndAddImmediate := by
  intro x nn s
  refine ⟨(congrArg decode (ofNat_eq_formatXN 0x6 x nn)).trans (decode_ldImm x nn),
    (congrArg decode (ofNat_eq_formatXN 0x7 x nn)).trans (decode_addImm x nn), exec_setV_frame (exec_of_no_trap rfl), ?_⟩
  obtain ⟨t, hexec, hx, hframe⟩ := exec_setV_frame (exec_of_no_trap (i := .addImm x nn) (s := s) rfl)
  exact ⟨t, hexec, by rw [hx, BitVec.toNat_add], hframe⟩

/-- Settles O17: both forms write result and flag, so VF ends holding the flag even as the destination. -/
theorem addAndSubtractWriteTheFlagLast : Obligations.AddAndSubtractWriteTheFlagLast := fun x y _ =>
  ⟨(congrArg decode (ofNat_subOpcode_eq_formatXYN 0x8 x y 0x4)).trans (decode_addReg x y),
   (congrArg decode (ofNat_subOpcode_eq_formatXYN 0x8 x y 0x5)).trans (decode_sub x y),
   exec_resultAndFlag_frame (exec_of_no_trap rfl) (toNat_carryFlag _ _) (BitVec.toNat_add _ _),
   exec_resultAndFlag_frame (exec_of_no_trap rfl) (toNat_noBorrowFlag _ _) (toNat_sub_byte _ _)⟩

/-- Settles O18: the effect names `x` alone, its result is a shift by one and its flag the bit that leaves. -/
theorem shiftLeftMovesBitSevenToVF : Obligations.ShiftLeftMovesBitSevenToVF := fun x y _ =>
  ⟨(congrArg decode (ofNat_subOpcode_eq_formatXYN 0x8 x y 0xE)).trans (decode_shl x y),
   exec_resultAndFlag_frame (exec_of_no_trap rfl) (toNat_shiftedOutHigh _) (toNat_shiftLeft_one _)⟩

end Machine
end Sys2Proof

/-! # The family of spec/43_index_and_memory.md

SUPPORT. What the words of LD I and of the memory transfers decode to, what memory and the registers read after a
transfer of several bytes, and from that the statements on LD I (R110), LD B (R113), LD [I], Vx (R114) and LD Vx, [I]
(R115). -/
namespace Sys2Proof

/-! ## Words of modes A and F, and decoding them (R54, R55) -/

/-- A statement's sum with the sub-opcode in its first number is the format with `x` and `nn` (R52). -/
theorem ofNat_subOpcode_eq_formatXN (mode : Nat) (x : Reg) (nn : Byte) :
    BitVec.ofNat 16 (mode * 4096 + nn.toNat + 0x100 * x.val) = formatXN mode x nn := by
  rw [← ofNat_eq_formatXN, Nat.add_right_comm]

theorem decode_ldI (nnn : Addr12) : decode (formatA 0xA nnn) = .ok (.ldI nnn) := by
  simp only [decode, fieldMode_formatA, fieldNNN_formatA, Nat.reduceLT]

/-- Mode F dispatches on `nn` (R55). -/
theorem decode_modeF (x : Reg) (nn : Byte) : decode (formatXN 0xF x nn) = decodeModeF (formatXN 0xF x nn) := by
  simp only [decode, fieldMode_formatXN, Nat.reduceLT]

theorem decode_bcd (x : Reg) : decode (formatXN 0xF x 0x33) = .ok (.bcd x) := by
  simp [decode_modeF, decodeModeF, fieldX_formatXN, slice_formatXN]

theorem decode_store (x : Reg) : decode (formatXN 0xF x 0x55) = .ok (.store x) := by
  simp [decode_modeF, decodeModeF, fieldX_formatXN, slice_formatXN]

theorem decode_load (x : Reg) : decode (formatXN 0xF x 0x65) = .ok (.load x) := by
  simp [decode_modeF, decodeModeF, fieldX_formatXN, slice_formatXN]

namespace Machine

/-! ## What a transfer of several bytes reads back as -/

theorem Memory.read_writeAll_add (m : Memory) (a : Nat) {bs : List Byte} {k : Nat} (h : k < bs.length) :
    (m.writeAll a bs).read (a + k) = bs.getD k 0#8 := by
  rw [Memory.read_writeAll, if_pos (by omega), Nat.add_sub_cancel_left]

theorem Memory.read_writeAll_outside (m : Memory) {a b : Nat} {bs : List Byte} (h : b < a ∨ a + bs.length ≤ b) :
    (m.writeAll a bs).read b = m.read b := by
  rw [Memory.read_writeAll, if_neg (by omega)]

theorem Memory.getD_readAll (m : Memory) (a n k : Nat) (d : Byte) :
    (m.readAll a n).getD k d = if k < n then m.read (a + k) else d := by
  by_cases h : k < n <;> simp [Memory.readAll, List.getD_eq_getElem?_getD, h]

/-- The three digits of a byte as numbers: hundreds, tens, ones (R113). -/
theorem map_toNat_bcdDigits (v : Byte) :
    (bcdDigits v).map BitVec.toNat = [v.toNat / 100, v.toNat / 10 % 10, v.toNat % 10] := by
  have := v.isLt
  simp only [bcdDigits, List.map_cons, List.map_nil, BitVec.toNat_ofNat, List.cons.injEq, and_true]
  omega

/-- Digit `k` of a byte, read from the list of the digits as numbers. -/
theorem toNat_getD_bcdDigits (v : Byte) (k : Nat) :
    ((bcdDigits v).getD k 0#8).toNat = [v.toNat / 100, v.toNat / 10 % 10, v.toNat % 10].getD k 0 := by
  rw [← map_toNat_bcdDigits]
  exact (List.getD_map (bcdDigits v) 0#8 BitVec.toNat).symm

/-- An instruction that only stores bytes from `I` on leaves them there, and the rest of memory and every other field as
they are. -/
theorem exec_writeAll_frame {i : Instr} {s : State} {bs : List Byte} {n : Nat} (hn : bs.length = n + 1)
    (h : exec i s = .next (s.setMem (s.mem.writeAll s.I.toNat bs))) :
    ∃ t, exec i s = .next t ∧ (∀ k ≤ n, t.mem.read (s.I.toNat + k) = bs.getD k 0#8) ∧
      (∀ a, a < s.I.toNat ∨ s.I.toNat + n < a → t.mem.read a = s.mem.read a) ∧ t = { s with mem := t.mem } :=
  ⟨_, h, fun _ hk => s.mem.read_writeAll_add _ (by omega), fun _ ha => s.mem.read_writeAll_outside (by omega), rfl⟩

/-! ## The statements -/

/-- Settles O24: within bounds the effect stores the list `V0` to `Vx` from `I` on; beyond, `trapIn` lists the fault. -/
theorem storeWritesV0ToVx : Obligations.StoreWritesV0ToVx := by
  intro x s
  refine ⟨(congrArg decode (ofNat_subOpcode_eq_formatXN 0xF x 0x55)).trans (decode_store x), fun h => ?_,
    fun h => faultsWith_of_trap (if_pos h)⟩
  have hn : trapIn (.store x) s = none := if_neg (by omega)
  obtain ⟨t, hexec, hread, hframe⟩ := exec_writeAll_frame (s.length_regsUpTo x) (exec_of_no_trap hn)
  exact ⟨t, hexec, fun k hk => (hread k hk).trans (s.getD_regsUpTo hk _), hframe⟩

/-- Settles O25: within bounds the effect puts the bytes from `I` on into `V0` to `Vx`; beyond, `trapIn` lists the
fault. -/
theorem loadReadsV0ToVx : Obligations.LoadReadsV0ToVx := by
  intro x s
  refine ⟨(congrArg decode (ofNat_subOpcode_eq_formatXN 0xF x 0x65)).trans (decode_load x), fun h => ?_,
    fun h => faultsWith_of_trap (if_pos h)⟩
  have hn : trapIn (.load x) s = none := if_neg (by omega)
  refine ⟨_, exec_of_no_trap hn, fun k hk => ?_, fun k hk => ?_, rfl⟩
  · rw [effect, State.reg_setRegs, Memory.getD_readAll, if_pos (Nat.lt_succ_of_le hk)]
  · rw [effect, State.reg_setRegs, Memory.getD_readAll, if_neg (Nat.not_lt_of_le hk)]

/-- Settles O21: the effect writes the zero-extended immediate to `I` and nothing else. -/
theorem loadIndexImmediate : Obligations.LoadIndexImmediate :=
  fun nnn _ => ⟨decode_ldI nnn, _, exec_of_no_trap rfl, toNat_zext12 nnn, rfl⟩

/-- Settles O23: within bounds the effect stores the list of the three digits from `I` on; beyond, `trapIn` lists the
fault. -/
theorem bcdStoresThreeDigits : Obligations.BcdStoresThreeDigits := by
  intro x s
  refine ⟨(congrArg decode (ofNat_subOpcode_eq_formatXN 0xF x 0x33)).trans (decode_bcd x), fun h => ?_,
    fun h => faultsWith_of_trap (if_pos (by omega))⟩
  have hn : trapIn (.bcd x) s = none := if_neg (by omega)
  obtain ⟨t, hexec, hread, hframe⟩ := exec_writeAll_frame (length_bcdDigits (s.reg x)) (exec_of_no_trap hn)
  have hdigit (k : Nat) (hk : k ≤ 2) := (congrArg BitVec.toNat (hread k hk)).trans (toNat_getD_bcdDigits (s.reg x) k)
  exact ⟨t, hexec, hdigit 0 (by omega), hdigit 1 (by omega), hdigit 2 (by omega), hframe⟩

end Machine
end Sys2Proof

/-! # The family of spec/44_display.md

SUPPORT. The mask of a pixel as a number, that a pixel's byte and mask determine it, and what clearing the screen leaves
on it, and from that the statements on the framebuffer's layout (R120) and on CLS (R121). -/
namespace Sys2Proof

theorem decode_cls : decode 0x00E0#16 = .ok .cls := by decide

namespace Machine

/-! ## The mask of a pixel (R120) -/

theorem toNat_fbMask (px py : Nat) : (fbMask px py).toNat = 0x80 / 2 ^ ((px + 64 * py) % 8) := by
  rw [fbMask, BitVec.toNat_ushiftRight, Nat.shiftRight_eq_div_pow]
  rfl

/-- Pixels with the same mask are in the same column of their bytes. -/
theorem mod_eq_of_fbMask_eq {px py qx qy : Nat} (h : fbMask qx qy = fbMask px py) : qx % 8 = px % 8 := by
  have hlt : 7 - px % 8 < 8 := by omega
  have hbit : 7 - px % 8 = 7 - qx % 8 := by
    simpa [fbMask_eq, BitVec.getLsbD_twoPow, hlt] using congrArg (·.getLsbD (7 - px % 8)) h
  omega

/-- On the screen no two pixels share a bit: the byte gives the row and the eight columns, the mask the column among
them. -/
theorem pixel_position_unique {px py qx qy : Nat} (hpx : px < 64) (hqx : qx < 64) (haddr : fbAddr qx qy = fbAddr px py)
    (hmask : fbMask qx qy = fbMask px py) : qx = px ∧ qy = py := by
  have hcol := mod_eq_of_fbMask_eq hmask
  rw [fbAddr_eq, fbAddr_eq] at haddr
  omega

/-! ## The screen after CLS (R121) -/

theorem pixel_clearFramebuffer (m : Memory) {px py : Nat} (hx : px < 64) (hy : py < 32) :
    pixel (clearFramebuffer m) px py = false := by
  rw [pixel_eq, read_clearFramebuffer, if_pos (by omega), BitVec.getLsbD_zero]

/-! ## The statements -/

/-- Settles O30: the address and the mask in closed form, the pixel as that bit of that byte, and the position they
determine. -/
theorem pixelsAreTheBitsOfTheFramebuffer : Obligations.PixelsAreTheBitsOfTheFramebuffer := by
  intro m px py hx hy
  obtain ⟨hlow, hhigh⟩ := fbAddr_range (Nat.lt_succ_of_le hx) (Nat.lt_succ_of_le hy)
  exact ⟨fbAddr_eq px py, rfl, toNat_fbMask px py, hlow, hhigh, pixel_eq m px py,
    fun _ _ hqx _ => pixel_position_unique (Nat.lt_succ_of_le hx) (Nat.lt_succ_of_le hqx)⟩

/-- Settles O31: the effect replaces memory alone, by one that reads 0 in the framebuffer and as before outside it. -/
theorem clearScreenZeroesTheFramebufferOnly : Obligations.ClearScreenZeroesTheFramebufferOnly := by
  refine ⟨decode_cls, fun s => ⟨_, exec_of_no_trap rfl, fun a hlow hhigh => ?_, fun a hout => ?_,
    fun px py hx hy => ?_, rfl⟩⟩
  · exact (read_clearFramebuffer s.mem a).trans (if_pos ⟨hlow, hhigh⟩)
  · exact (read_clearFramebuffer s.mem a).trans (if_neg (by omega))
  · exact pixel_clearFramebuffer s.mem (Nat.lt_succ_of_le hx) (Nat.lt_succ_of_le hy)

end Machine
end Sys2Proof

/-! # The family of spec/45_timers_and_keys.md

SUPPORT. What the words of the three timer instructions decode to, and from that the statement on them (R130, R131,
R132). -/
namespace Sys2Proof

theorem decode_ldFromDT (x : Reg) : decode (formatXN 0xF x 0x07) = .ok (.ldFromDT x) := by
  simp [decode_modeF, decodeModeF, fieldX_formatXN, slice_formatXN]

theorem decode_ldDT (x : Reg) : decode (formatXN 0xF x 0x15) = .ok (.ldDT x) := by
  simp [decode_modeF, decodeModeF, fieldX_formatXN, slice_formatXN]

theorem decode_ldST (x : Reg) : decode (formatXN 0xF x 0x18) = .ok (.ldST x) := by
  simp [decode_modeF, decodeModeF, fieldX_formatXN, slice_formatXN]

namespace Machine

/-- Settles O35: no timer instruction raises a fault, the effect of the read writes `Vx` alone, and those of the two
writes one timer alone. -/
theorem timerInstructionsMoveOneByte : Obligations.TimerInstructionsMoveOneByte := fun x _ =>
  ⟨(congrArg decode (ofNat_subOpcode_eq_formatXN 0xF x 0x07)).trans (decode_ldFromDT x),
   (congrArg decode (ofNat_subOpcode_eq_formatXN 0xF x 0x15)).trans (decode_ldDT x),
   (congrArg decode (ofNat_subOpcode_eq_formatXN 0xF x 0x18)).trans (decode_ldST x),
   exec_setV_frame (exec_of_no_trap rfl), exec_eq_next rfl rfl, exec_eq_next rfl rfl⟩

end Machine
end Sys2Proof

/-! # The family of spec/30_encoding.md

SUPPORT. What the words of the forms that no lemma above decodes decode to; the rows of the opcode table as a mode and a
number in the low bits; the words each mode rejects; and from that the statements on the decoder and the encoder (R50 to
R57). -/
namespace Sys2Proof

/-! ## Decoding the other forms (R54, R55) -/

theorem decode_call (nnn : Addr12) : decode (formatA 0x2 nnn) = .ok (.call nnn) := by
  simp only [decode, fieldMode_formatA, fieldNNN_formatA, Nat.reduceLT]

theorem decode_jpV0 (nnn : Addr12) : decode (formatA 0xB nnn) = .ok (.jpV0 nnn) := by
  simp only [decode, fieldMode_formatA, fieldNNN_formatA, Nat.reduceLT]

theorem decode_rnd (x : Reg) (nn : Byte) : decode (formatXN 0xC x nn) = .ok (.rnd x nn) := by
  simp only [decode, fieldMode_formatXN, fieldX_formatXN, fieldNN_formatXN, Nat.reduceLT]

theorem decode_drw (x y : Reg) (n : Fin 16) : decode (formatXYN 0xD x y n) = .ok (.drw x y n) := by
  simp only [decode, fieldMode_formatXYN, fieldX_formatXYN, fieldY_formatXYN, fieldN_formatXYN, Nat.reduceLT]

theorem decode_ldReg (x y : Reg) : decode (formatXYN 0x8 x y 0x0) = .ok (.ldReg x y) := by
  simp [decode_mode8, decodeMode8, fieldX_formatXYN, fieldY_formatXYN, fieldN_formatXYN]

theorem decode_orReg (x y : Reg) : decode (formatXYN 0x8 x y 0x1) = .ok (.orReg x y) := by
  simp [decode_mode8, decodeMode8, fieldX_formatXYN, fieldY_formatXYN, fieldN_formatXYN]

theorem decode_andReg (x y : Reg) : decode (formatXYN 0x8 x y 0x2) = .ok (.andReg x y) := by
  simp [decode_mode8, decodeMode8, fieldX_formatXYN, fieldY_formatXYN, fieldN_formatXYN]

theorem decode_xorReg (x y : Reg) : decode (formatXYN 0x8 x y 0x3) = .ok (.xorReg x y) := by
  simp [decode_mode8, decodeMode8, fieldX_formatXYN, fieldY_formatXYN, fieldN_formatXYN]

theorem decode_shr (x y : Reg) : decode (formatXYN 0x8 x y 0x6) = .ok (.shr x y) := by
  simp [decode_mode8, decodeMode8, fieldX_formatXYN, fieldY_formatXYN, fieldN_formatXYN]

theorem decode_subn (x y : Reg) : decode (formatXYN 0x8 x y 0x7) = .ok (.subn x y) := by
  simp [decode_mode8, decodeMode8, fieldX_formatXYN, fieldY_formatXYN, fieldN_formatXYN]

/-- Mode E dispatches on `nn` (R55). -/
theorem decode_modeE (x : Reg) (nn : Byte) : decode (formatXN 0xE x nn) = decodeModeE (formatXN 0xE x nn) := by
  simp only [decode, fieldMode_formatXN, Nat.reduceLT]

theorem decode_skp (x : Reg) : decode (formatXN 0xE x 0x9E) = .ok (.skp x) := by
  simp [decode_modeE, decodeModeE, fieldX_formatXN, slice_formatXN]

theorem decode_sknp (x : Reg) : decode (formatXN 0xE x 0xA1) = .ok (.sknp x) := by
  simp [decode_modeE, decodeModeE, fieldX_formatXN, slice_formatXN]

theorem decode_ldKey (x : Reg) : decode (formatXN 0xF x 0x0A) = .ok (.ldKey x) := by
  simp [decode_modeF, decodeModeF, fieldX_formatXN, slice_formatXN]

theorem decode_addI (x : Reg) : decode (formatXN 0xF x 0x1E) = .ok (.addI x) := by
  simp [decode_modeF, decodeModeF, fieldX_formatXN, slice_formatXN]

theorem decode_ldFont (x : Reg) : decode (formatXN 0xF x 0x29) = .ok (.ldFont x) := by
  simp [decode_modeF, decodeModeF, fieldX_formatXN, slice_formatXN]

/-! ## Decoding what was encoded -/

theorem decode_encode (i : Instr) : decode (encode i) = .ok i := by
  cases i with
  | halt | ret => decide
  | cls => exact decode_cls
  | jp nnn => exact decode_jp nnn
  | call nnn => exact decode_call nnn
  | seImm x nn => exact decode_seImm x nn
  | sneImm x nn => exact decode_sneImm x nn
  | seReg x y => exact decode_mode5 x y 0
  | ldImm x nn => exact decode_ldImm x nn
  | addImm x nn => exact decode_addImm x nn
  | ldReg x y => exact decode_ldReg x y
  | orReg x y => exact decode_orReg x y
  | andReg x y => exact decode_andReg x y
  | xorReg x y => exact decode_xorReg x y
  | addReg x y => exact decode_addReg x y
  | sub x y => exact decode_sub x y
  | shr x y => exact decode_shr x y
  | subn x y => exact decode_subn x y
  | shl x y => exact decode_shl x y
  | sneReg x y => exact decode_mode9 x y 0
  | ldI nnn => exact decode_ldI nnn
  | jpV0 nnn => exact decode_jpV0 nnn
  | rnd x nn => exact decode_rnd x nn
  | drw x y n => exact decode_drw x y n
  | skp x => exact decode_skp x
  | sknp x => exact decode_sknp x
  | ldFromDT x => exact decode_ldFromDT x
  | ldKey x => exact decode_ldKey x
  | ldDT x => exact decode_ldDT x
  | ldST x => exact decode_ldST x
  | addI x => exact decode_addI x
  | ldFont x => exact decode_ldFont x
  | bcd x => exact decode_bcd x
  | store x => exact decode_store x
  | load x => exact decode_load x

/-- The two bytes of an instruction, at the head of a byte string, decode to it and leave the rest (R50). -/
theorem decodeBytes_encodeBytes (i : Instr) (rest : List Byte) : decodeBytes (encodeBytes i ++ rest) = .ok (i, rest) := by
  simp only [encodeBytes, List.cons_append, List.nil_append, decodeBytes, Word.ofBytes_hi_lo, decode_encode]

/-! ## Encoding what was decoded -/

theorem formatA_of_mode {w : Word} {mode : Nat} (h : fieldMode w = mode) : formatA mode (fieldNNN w) = w := by
  rw [← h, formatA_of_fields]

theorem formatXN_of_mode {w : Word} {mode : Nat} (h : fieldMode w = mode) : formatXN mode (fieldX w) (fieldNN w) = w := by
  rw [← h, formatXN_of_fields]

theorem formatXN_of_sub {w : Word} {mode : Nat} {nn : Byte} (h : fieldMode w = mode) (hn : slice w 0 8 = nn.toNat) :
    formatXN mode (fieldX w) nn = w := by
  have hnn : fieldNN w = nn := by rw [fieldNN, hn, BitVec.ofNat_toNat, BitVec.setWidth_eq]
  exact hnn ▸ formatXN_of_mode h

theorem formatXYN_of_sub {w : Word} {mode : Nat} {n : Fin 16} (h : fieldMode w = mode) (hn : fieldN w = n) :
    formatXYN mode (fieldX w) (fieldY w) n = w := by
  rw [← h, ← hn, formatXYN_of_fields]

theorem encode_of_decodeMode0 {w : Word} {i : Instr} (h : decodeMode0 w = .ok i) : encode i = w := by
  unfold decodeMode0 at h
  split_ifs at h with h0 h1 h2 <;> cases h
  exacts [h0.symm, h1.symm, h2.symm]

theorem encode_of_decodeMode8 {w : Word} {i : Instr} (hm : fieldMode w = 8) (h : decodeMode8 w = .ok i) : encode i = w := by
  unfold decodeMode8 at h
  split at h <;> cases h
  all_goals exact formatXYN_of_sub hm (Fin.ext ‹_›)

theorem encode_of_decodeModeE {w : Word} {i : Instr} (hm : fieldMode w = 0xE) (h : decodeModeE w = .ok i) : encode i = w := by
  unfold decodeModeE at h
  split at h <;> cases h
  all_goals exact formatXN_of_sub hm ‹_›

theorem encode_of_decodeModeF {w : Word} {i : Instr} (hm : fieldMode w = 0xF) (h : decodeModeF w = .ok i) : encode i = w := by
  unfold decodeModeF at h
  split at h <;> cases h
  all_goals exact formatXN_of_sub hm ‹_›

theorem encode_of_decode {w : Word} {i : Instr} (h : decode w = .ok i) : encode i = w := by
  have hlt := fieldMode_lt w
  rw [decode] at h
  generalize hm : fieldMode w = mode at h hlt
  match mode, hlt, h with
  | 0x0, _, h => exact encode_of_decodeMode0 h
  | 0x5, _, h | 0x9, _, h =>
    split_ifs at h with hn
    cases h; exact formatXYN_of_sub hm hn
  | 0x8, _, h => exact encode_of_decodeMode8 hm h
  | 0xD, _, rfl => exact formatXYN_of_sub hm rfl
  | 0xE, _, h => exact encode_of_decodeModeE hm h
  | 0xF, _, h => exact encode_of_decodeModeF hm h
  | 0x1, _, rfl | 0x2, _, rfl | 0xA, _, rfl | 0xB, _, rfl => exact formatA_of_mode hm
  | 0x3, _, rfl | 0x4, _, rfl | 0x6, _, rfl | 0x7, _, rfl | 0xC, _, rfl => exact formatXN_of_mode hm
  | _ + 16, hlt, _ => omega

/-! ## The rows of the opcode table (R54) -/

/-- The mode a row fixes: bits 15 to 12 of its match value. -/
def OpcodeRow.mode (r : OpcodeRow) : Nat := r.value.toNat / 4096

/-- The low bits of a row's match value, which it compares with the low bits of a word. -/
def OpcodeRow.low (r : OpcodeRow) : Nat := r.value.toNat % 4096

/-- How many low bits of a word a row compares: none, `n`, `nn` or all twelve (R54). -/
def OpcodeRow.lowBits (r : OpcodeRow) : Nat :=
  if r.mask = 0xF000 then 0 else if r.mask = 0xF00F then 4 else if r.mask = 0xF0FF then 8 else 12

theorem OpcodeRow.lowBits_le (r : OpcodeRow) : r.lowBits ≤ 12 := by
  unfold OpcodeRow.lowBits; split_ifs <;> decide

/-- Every row's mask is the mode's four bits and the low bits it compares. -/
theorem mask_eq_of_mem_opcodeTable :
    ∀ r ∈ opcodeTable, r.mask = 0xF000#16 ||| BitVec.ofNat 16 (2 ^ r.lowBits - 1) := by decide

/-- A word that matches a row has the row's mode and its low bits. -/
theorem fields_of_row_match {w : Word} {r : OpcodeRow} (hr : r ∈ opcodeTable) (h : w &&& r.mask = r.value) :
    fieldMode w = r.mode ∧ slice w 0 r.lowBits = r.low := by
  have hj := r.lowBits_le
  have hm := fieldMode_lt w
  have hs : slice w 0 r.lowBits < 2 ^ 12 :=
    (Nat.mod_lt _ (Nat.two_pow_pos _)).trans_le (Nat.pow_le_pow_right (by decide) hj)
  rw [mask_eq_of_mem_opcodeTable r hr, and_mask_low r.lowBits (by omega) rfl rfl] at h
  have hv : r.value.toNat = fieldMode w * 4096 + slice w 0 r.lowBits := by
    rw [← h, BitVec.toNat_or, BitVec.toNat_ofNat, BitVec.toNat_ofNat, Nat.mod_eq_of_lt (by omega),
      Nat.mod_eq_of_lt (by omega), Nat.mul_comm, ← Nat.two_pow_add_eq_or_of_lt hs (fieldMode w)]
  rw [OpcodeRow.mode, OpcodeRow.low, hv]
  omega

/-- Two rows of the table differ in a bit that both compare, so no word matches both (R54). -/
theorem rows_disjoint :
    ∀ r ∈ opcodeTable, ∀ q ∈ opcodeTable, r.value &&& q.mask = q.value &&& r.mask → r = q := by decide

/-- The row a word matches is the only one. -/
theorem row_unique {w : Word} {r q : OpcodeRow} (hr : r ∈ opcodeTable) (hq : q ∈ opcodeTable)
    (hrw : w &&& r.mask = r.value) (hqw : w &&& q.mask = q.value) : r = q := by
  refine rows_disjoint r hr q hq ?_
  rw [← hrw, ← hqw, BitVec.and_assoc, BitVec.and_assoc, BitVec.and_comm r.mask]

/-- In the six modes that reject words, the rows list exactly the low bits that the mode accepts (R54, R56). -/
theorem low_of_mem_opcodeTable : ∀ r ∈ opcodeTable,
    (r.mode = 0x0 → r.lowBits = 12 ∧ r.low ∈ [0x000, 0x0E0, 0x0EE]) ∧
    (r.mode = 0x5 ∨ r.mode = 0x9 → r.lowBits = 4 ∧ r.low = 0) ∧
    (r.mode = 0x8 → r.lowBits = 4 ∧ r.low ∉ [0x8, 0x9, 0xA, 0xB, 0xC, 0xD, 0xF]) ∧
    (r.mode = 0xE → r.lowBits = 8 ∧ r.low ∈ [0x9E, 0xA1]) ∧
    (r.mode = 0xF → r.lowBits = 8 ∧ r.low ∈ [0x07, 0x0A, 0x15, 0x18, 0x1E, 0x29, 0x33, 0x55, 0x65]) := by decide

/-- The fixed bits of every instruction, from the lemma of its form (R54). -/
theorem Laws.FixedBits.statement (i : Instr) : Laws.FixedBits.Statement i := by
  open Laws.FixedBits in
  cases i
  exacts [halt, cls, ret, jp _, call _, seImm _ _, sneImm _ _, seReg _ _, ldImm _ _, addImm _ _, ldReg _ _, orReg _ _,
    andReg _ _, xorReg _ _, addReg _ _, sub _ _, shr _ _, subn _ _, shl _ _, sneReg _ _, ldI _, jpV0 _, rnd _ _,
    drw _ _ _, skp _, sknp _, ldFromDT _, ldKey _, ldDT _, ldST _, addI _, ldFont _, bcd _, store _, load _]

/-! ## The words that each mode rejects (R56) -/

theorem fieldMode_eq_div (w : Word) : fieldMode w = w.toNat / 4096 := by
  have := word_lt w
  simp only [fieldMode, slice]; omega

theorem fieldN_val_eq_mod (w : Word) : (fieldN w).val = w.toNat % 16 := by
  rw [fieldN, nibble_val, pow_zero, Nat.div_one]

theorem slice_zero_eq_mod (w : Word) (j : Nat) : slice w 0 j = w.toNat % 2 ^ j := by
  rw [slice, pow_zero, Nat.div_one]

theorem decodeMode0_error_iff (w : Word) :
    (∃ e, decodeMode0 w = .error e) ↔ w.toNat ≠ 0x0000 ∧ w.toNat ≠ 0x00E0 ∧ w.toNat ≠ 0x00EE := by
  unfold decodeMode0
  split_ifs <;> simp_all [← BitVec.toNat_inj]

theorem decodeMode8_error_iff (w : Word) :
    (∃ e, decodeMode8 w = .error e) ↔ w.toNat % 16 ∈ [0x8, 0x9, 0xA, 0xB, 0xC, 0xD, 0xF] := by
  have hlt := (fieldN w).isLt
  rw [← fieldN_val_eq_mod, decodeMode8]
  split <;> simp_all
  omega

theorem decodeModeE_error_iff (w : Word) : (∃ e, decodeModeE w = .error e) ↔ w.toNat % 256 ∉ [0x9E, 0xA1] := by
  rw [show w.toNat % 256 = slice w 0 8 from (slice_zero_eq_mod w 8).symm, decodeModeE]
  split <;> simp_all

theorem decodeModeF_error_iff (w : Word) :
    (∃ e, decodeModeF w = .error e) ↔ w.toNat % 256 ∉ [0x07, 0x0A, 0x15, 0x18, 0x1E, 0x29, 0x33, 0x55, 0x65] := by
  rw [show w.toNat % 256 = slice w 0 8 from (slice_zero_eq_mod w 8).symm, decodeModeF]
  split <;> simp_all

/-- Modes 5 and 9: an `n` other than 0 is rejected. -/
theorem nibble_error_iff (w : Word) (i : Instr) (e : Reject) :
    (∃ r, (if fieldN w = 0 then Except.ok i else .error e) = Except.error r) ↔ w.toNat % 16 ≠ 0 := by
  rw [← fieldN_val_eq_mod]
  by_cases h : fieldN w = 0 <;> simp [h, Fin.val_eq_zero_iff]

/-! ## The statements -/

/-- Settles O1: `decode_encode`, one form after the other, and `decodeBytes` reads the two bytes of the encoding. -/
theorem decodeOfEncodeGivesTheInstruction : Obligations.DecodeOfEncodeGivesTheInstruction :=
  fun i rest => ⟨decode_encode i, decodeBytes_encodeBytes i rest⟩

/-- Settles O2: in every mode the decoded fields, put back by the format, are the word. -/
theorem encodeOfDecodeGivesTheWord : Obligations.EncodeOfDecodeGivesTheWord :=
  fun _ _ h => encode_of_decode h

/-- Settles O4: `decode` dispatches on the mode, ten modes reject nothing, and the other six what their lemma says. -/
theorem illegalWordsAreTheSixClasses : Obligations.IllegalWordsAreTheSixClasses := by
  intro w
  have hlt := fieldMode_lt w
  rw [decode, ← fieldMode_eq_div]
  generalize fieldMode w = mode at hlt ⊢
  match mode, hlt with
  | 0x0, _ => simpa using decodeMode0_error_iff w
  | 0x5, _ => simpa using nibble_error_iff w _ _
  | 0x8, _ => simpa using decodeMode8_error_iff w
  | 0x9, _ => simpa using nibble_error_iff w _ _
  | 0xE, _ => simpa using decodeModeE_error_iff w
  | 0xF, _ => simpa using decodeModeF_error_iff w
  | 0x1, _ | 0x2, _ | 0x3, _ | 0x4, _ | 0x6, _ | 0x7, _ | 0xA, _ | 0xB, _ | 0xC, _ | 0xD, _ => simp
  | _ + 16, hlt => omega

/-- Settles O3: a legal word is the encoding of its instruction, whose row it matches and which excludes the other rows;
an illegal one is of one of the six classes, whose low bits no row of the mode has. -/
theorem wordDecodesToTheOneRowItMatches : Obligations.WordDecodesToTheOneRowItMatches := by
  intro w
  constructor
  · intro i h
    obtain ⟨hmatch, hrow⟩ := Laws.FixedBits.statement i
    rw [encode_of_decode h] at hmatch
    exact ⟨hrow, hmatch, fun r hr hrw => row_unique hr hrow hrw hmatch⟩
  · intro e he r hr hrw
    obtain ⟨hmode, hlow⟩ := fields_of_row_match hr hrw
    obtain ⟨h0, h59, h8, hE, hF⟩ := low_of_mem_opcodeTable r hr
    rw [slice_zero_eq_mod] at hlow
    have hclass := (illegalWordsAreTheSixClasses w).1 ⟨e, he⟩
    rw [← fieldMode_eq_div, hmode] at hclass
    rcases hclass with ⟨hm, h⟩ | ⟨hm, h⟩ | ⟨hm, h⟩ | ⟨hm, h⟩ | ⟨hm, h⟩ | ⟨hm, h⟩
    · obtain ⟨hb, hl⟩ := h0 hm
      have hw : w.toNat % 4096 = w.toNat := Nat.mod_eq_of_lt (by have := fieldMode_eq_div w; omega)
      rw [hb] at hlow
      simp only [List.mem_cons, List.not_mem_nil, or_false] at hl
      omega
    · obtain ⟨hb, hl⟩ := h59 (.inl hm)
      rw [hb] at hlow
      omega
    · obtain ⟨hb, hl⟩ := h59 (.inr hm)
      rw [hb] at hlow
      omega
    · obtain ⟨hb, hl⟩ := h8 hm
      exact hl (by rwa [← hlow, hb])
    · obtain ⟨hb, hl⟩ := hE hm
      exact h (by rwa [← hlow, hb] at hl)
    · obtain ⟨hb, hl⟩ := hF hm
      exact h (by rwa [← hlow, hb] at hl)

/-- Settles O5: each word is small and closed, so the decoder computes it. -/
theorem wordsOfTheTableDecodeToTheirInstructions : Obligations.WordsOfTheTableDecodeToTheirInstructions := by
  unfold Obligations.WordsOfTheTableDecodeToTheirInstructions
  decide

end Sys2Proof

/-! # What an instruction changes and what it leaves

SUPPORT. Which elements each form writes, said once for all 35 (`effect_frame`), and from that and the laws of `exec` and
`step` the statements on the faults, on the elements each form may change, and on what a step does (R70 to R74, R151). -/
namespace Sys2Proof.Machine

/-! ## The frame of every effect (R72) -/

/-- `t` differs from `s` in the elements that the rule of the form names, and in no other field (R72). -/
abbrev EffectFrame (i : Instr) (s t : State) : Prop :=
  match i with
  | .halt => t = { s with status := t.status }
  | .cls | .bcd _ | .store _ => t = { s with mem := t.mem }
  | .ret => t = { s with pc := t.pc, sp := t.sp }
  | .call _ => t = { s with pc := t.pc, sp := t.sp, stack := t.stack }
  | .jp _ | .jpV0 _ | .seImm _ _ | .sneImm _ _ | .seReg _ _ | .sneReg _ _ | .skp _ | .sknp _ => t = { s with pc := t.pc }
  | .ldImm _ _ | .addImm _ _ | .ldReg _ _ | .orReg _ _ | .andReg _ _ | .xorReg _ _ => t = { s with V := t.V }
  | .addReg _ _ | .sub _ _ | .shr _ _ | .subn _ _ | .shl _ _ | .ldFromDT _ | .load _ => t = { s with V := t.V }
  | .rnd _ _ => t = { s with V := t.V, freeIndex := t.freeIndex }
  | .drw _ _ _ => t = { s with V := t.V, mem := t.mem }
  | .ldKey _ => t = { s with pc := t.pc, V := t.V }
  | .ldI _ | .addI _ | .ldFont _ => t = { s with I := t.I }
  | .ldDT _ => t = { s with DT := t.DT }
  | .ldST _ => t = { s with ST := t.ST }

theorem effect_frame (i : Instr) (s : State) : EffectFrame i s (effect i s) := by
  cases i
  case ret => exact effect_ret_frame s
  case call nnn => exact effect_call_frame nnn s
  case ldKey x => exact effect_ldKey_frame x s
  case seImm | sneImm | seReg | sneReg | skp | sknp => exact skipIf_frame _ s
  all_goals rfl

/-- No effect changes the keys, the cause or its advisory information. -/
theorem effect_keys_cause_advisory (i : Instr) (s : State) :
    (effect i s).keys = s.keys ∧ (effect i s).cause = s.cause ∧ (effect i s).advisory = s.advisory := by
  have h := effect_frame i s
  cases i <;> rw [h] <;> exact ⟨rfl, rfl, rfl⟩

/-- Only a call and a return change the stack or the number of its live entries (R80, R82). -/
theorem effect_stack {i : Instr} (s : State) (hcall : ∀ nnn, i ≠ .call nnn) (hret : i ≠ .ret) :
    (effect i s).sp = s.sp ∧ (effect i s).stack = s.stack := by
  have h := effect_frame i s
  cases i
  case call nnn => exact absurd rfl (hcall nnn)
  case ret => exact absurd rfl hret
  all_goals rw [h]; exact ⟨rfl, rfl⟩

/-- A load of `V0` to `Vx` leaves the registers above `Vx` (R115). -/
theorem reg_effect_load_above (s : State) {x r : Reg} (h : x < r) : (effect (.load x) s).reg r = s.reg r := by
  rw [effect, State.reg_setRegs, Memory.getD_readAll, if_neg (Nat.not_lt_of_le h)]

/-- A completed instruction's next state is its effect. -/
theorem eq_effect_of_exec {i : Instr} {s t : State} (h : exec i s = .next t) (hn : trapIn i s = none) : t = effect i s := by
  rw [exec_of_no_trap hn] at h
  cases h; rfl

/-- A fault the fetch or the decoder takes (R153). -/
theorem faultsWith_of_fetch {s : State} {t : Trap} (hr : s.status = .running) (h : fetchInstr s = .error t) :
    faultsWith (step s) t :=
  ⟨_, step_of_trap hr h, rfl, rfl, rfl⟩

/-! ## The halt word (R74) -/

theorem wordOfBytes_eq_zero_iff (hi lo : Byte) : Word.ofBytes hi lo = 0#16 ↔ hi = 0 ∧ lo = 0 := by
  rw [← BitVec.toNat_inj, toNat_wordOfBytes, ← BitVec.toNat_inj, ← BitVec.toNat_inj]
  simp

theorem decode_eq_halt_iff (w : Word) : decode w = .ok .halt ↔ w = 0#16 := by
  refine ⟨fun h => (encode_of_decode h).symm, ?_⟩
  rintro rfl
  exact decode_encode .halt

/-- The halt is fetched exactly from two zero bytes within memory. -/
theorem fetchInstr_eq_halt_iff (s : State) :
    fetchInstr s = .ok .halt ↔ s.pc.toNat ≤ 0xFFE ∧ s.mem.read s.pc.toNat = 0 ∧ s.mem.read (s.pc.toNat + 1) = 0 := by
  rw [fetchInstr_ok_iff, decode_eq_halt_iff, State.wordAtPc, wordOfBytes_eq_zero_iff]

/-! ## The statements -/

/-- Settles O6: `step` by its status, and a running step by what `fetchInstr` answers. -/
theorem stepFetchesAdvancesDecodesAndExecutes : Obligations.StepFetchesAdvancesDecodesAndExecutes := by
  intro s
  refine ⟨step_not_running, fun hr hpc => ?_, fun hr hpc w hw => ?_⟩
  · exact faultsWith_of_fetch hr (by rw [fetchInstr_eq, if_pos hpc]; rfl)
  · obtain rfl : w = s.wordAtPc := by
      apply BitVec.eq_of_toNat_eq
      rw [hw, State.wordAtPc, toNat_wordOfBytes]
    refine ⟨fun e he => ?_, fun i hi => ?_⟩
    · exact faultsWith_of_fetch hr (by rw [fetchInstr_eq, if_neg (by omega), he]; rfl)
    · exact step_of_instr hr ((fetchInstr_ok_iff s i).2 ⟨hpc, hi⟩)

/-- Settles O38: the law `step_next`, which rests on `exec_next`. -/
theorem everyStepAnswersANextState : Obligations.EveryStepAnswersANextState := step_next

/-- Settles O39: `exec_eq` takes the fault of `trapIn` or gives the effect, and no effect sets FAULTED. -/
theorem formsRaiseExactlyTheListedFaults : Obligations.FormsRaiseExactlyTheListedFaults := by
  refine fun i s => ⟨fun tr => faultsWith_of_trap, fun hn => ⟨effect i s, exec_of_no_trap hn, fun hs => ?_⟩⟩
  rw [effect_status]
  split_ifs
  · decide
  · exact hs

/-- Settles O40: the next state is the effect, whose frame leaves every element but those of its own form. -/
theorem onlyTheNamedFormsChangeEachElement : Obligations.OnlyTheNamedFormsChangeEachElement := by
  intro i s t hexec hn
  obtain rfl := eq_effect_of_exec hexec hn
  have h := effect_frame i s
  obtain ⟨hDT, hST⟩ := effect_timers i s
  obtain ⟨hkeys, hcause, hadvisory⟩ := effect_keys_cause_advisory i s
  refine ⟨fun himm hlogic harith hdrw hread => ?_, fun hret hjump himm hreg hkey => ?_, fun himm hadd hfont => ?_,
    effect_stack s, fun hne => hDT.resolve_right fun ⟨x, hx, _⟩ => hne x hx,
    fun hne => hST.resolve_right fun ⟨x, hx, _⟩ => hne x hx, fun hne => (effect_status i s).trans (if_neg hne),
    fun hcls hdrw hbcd hstore => ?_, fun hrnd => ?_, hkeys, hcause, hadvisory, effect_initialising i s⟩
  · cases i
    case ldImm | addImm | rnd => simp at himm
    case ldReg | orReg | andReg | xorReg => simp at hlogic
    case addReg | sub | shr | subn | shl => simp at harith
    case drw => simp at hdrw
    case ldFromDT | ldKey | load => simp at hread
    all_goals rw [h]
  · cases i
    case ret => simp at hret
    case jp | call | jpV0 => simp at hjump
    case seImm | sneImm => simp at himm
    case seReg | sneReg => simp at hreg
    case skp | sknp | ldKey => simp at hkey
    all_goals rw [h]
  · cases i
    case ldI => simp at himm
    case addI => simp at hadd
    case ldFont => simp at hfont
    all_goals rw [h]
  · cases i
    case cls => simp at hcls
    case drw => simp at hdrw
    case bcd => simp at hbcd
    case store => simp at hstore
    all_goals rw [h]
  · cases i
    case rnd => simp at hrnd
    all_goals rw [h]

/-- Settles O41: a form outside the six writes VF only by a register write to its destination, or by a load of all
sixteen. -/
theorem onlyTheFlagFormsWriteVFImplicitly : Obligations.OnlyTheFlagFormsWriteVFImplicitly := by
  intro i s t hexec hn harith hdrw hdest
  obtain rfl := eq_effect_of_exec hexec hn
  have h := effect_frame i s
  cases i
  case addReg | sub | shr | subn | shl => simp at harith
  case drw => simp at hdrw
  case ldImm x _ | addImm x _ | ldReg x _ | orReg x _ | andReg x _ | xorReg x _ | rnd x _ | ldFromDT x =>
    have hx : 15 ≠ x := by rintro rfl; simp at hdest
    exact State.reg_setV_ne _ _ hx
  case ldKey x =>
    have hx : 15 ≠ x := by rintro rfl; simp at hdest
    cases hk : s.lowestKey with
    | none => simp only [effect, hk]; rfl
    | some k => simp only [effect, hk]; exact s.reg_setV_ne _ hx
  case load x =>
    have hx : 15 ≠ x := by rintro rfl; simp at hdest
    exact reg_effect_load_above s (lt_of_le_of_ne (Fin.le_last x) hx.symm)
  all_goals exact State.reg_eq_of_V (by rw [h]) 15

/-- Settles O42: a step ends HALTED only by the effect of HALT, which is fetched exactly from two zero bytes. -/
theorem onlyTheHaltWordHalts : Obligations.OnlyTheHaltWordHalts := by
  intro s t hr h
  rw [← fetchInstr_eq_halt_iff]
  rcases step_cases h with ⟨hn, -⟩ | ⟨-, tr, rfl, hf⟩ | ⟨-, i, hi, -, rfl⟩
  · exact absurd hr hn
  · have hne : fetchInstr s ≠ .ok .halt := by
      intro hhalt
      rcases hf with hf | ⟨i, hf, htrap⟩
      · rw [hhalt] at hf; cases hf
      · rw [hhalt] at hf; cases hf; cases htrap
    simp [hne]
  · rw [effect_status, hi]
    by_cases hhalt : i = .halt <;> simp [hhalt, hr]

end Sys2Proof.Machine

/-! # The invariant, and what nothing reads

SUPPORT. The bounds that every effect keeps, what each transaction's next state is, and from that the invariant of R21
under steps, transactions and schedules, what only `reset` undoes (R156, R175), and that dead stack entries and an unset
cause have no influence (R15, R18). -/
namespace Sys2Proof.Machine

/-! ## What effects do to `pc` and to the live stack entries (R13, R15) -/

/-- A call with room: the entry at `sp` receives `pc`, which then goes to the immediate (R82). -/
theorem effect_call_of_sp (nnn : Addr12) {s : State} (h : s.sp.val < 16) :
    effect (.call nnn) s =
      { s with pc := zext12 nnn, stack := s.stack.set s.sp.val s.pc, sp := ⟨s.sp.val + 1, Nat.succ_lt_succ h⟩ } := by
  simp only [effect, State.push_ok _ h, State.setPc]

/-- A call that raises no fault has room. -/
theorem sp_lt_of_call {nnn : Addr12} {s : State} (h : trapIn (.call nnn) s = none) : s.sp.val < 16 := by
  have hne : s.sp.val ≠ 16 := by simpa [trapIn] using h
  omega

/-- A return that raises no fault has a newest live entry. -/
theorem exists_sp_of_ret {s : State} (h : trapIn .ret s = none) : ∃ k : Fin 16, s.sp.val = k.val + 1 := by
  have hne : s.sp.val ≠ 0 := by simpa [trapIn] using h
  exact ⟨⟨s.sp.val - 1, by omega⟩, by simp only; omega⟩

theorem toNat_zext8 (v : Byte) : (zext8 v).toNat = v.toNat := by
  have := v.isLt
  simp only [zext8, BitVec.toNat_ofNat]; omega

/-- The sum of an indexed jump does not wrap: it is at most 0x10FE (R83). -/
theorem toNat_jpV0_target (nnn : Addr12) (v : Byte) : (zext12 nnn + zext8 v).toNat = nnn.toNat + v.toNat := by
  have := nnn.isLt
  have := v.isLt
  rw [BitVec.toNat_add, toNat_zext12, toNat_zext8]; omega

theorem toNat_skipIf_pc_le (c : Bool) (s : State) : (skipIf c s).pc.toNat ≤ s.pc.toNat + 2 := by
  cases c
  · exact Nat.le_add_right _ 2
  · exact (BitVec.toNat_add s.pc 2#16).trans_le (Nat.mod_le _ _)

/-- No effect takes `pc` beyond 0x10FE, the highest target of an indexed jump (R13, R21). -/
theorem toNat_effect_pc_le {i : Instr} {s : State} (hn : trapIn i s = none) (hlow : 2 ≤ s.pc.toNat)
    (hpc : s.pc.toNat ≤ 0x1000) (hstack : ∀ k : Fin 16, k.val < s.sp.val → (s.stack.get k).toNat ≤ 0x1000) :
    (effect i s).pc.toNat ≤ 0x10FE := by
  have h := effect_frame i s
  cases i
  case ret =>
    obtain ⟨k, hk⟩ := exists_sp_of_ret hn
    rw [effect_ret_of_sp hk]
    exact (hstack k (by omega)).trans (by decide)
  case call nnn =>
    rw [effect_call_of_sp nnn (sp_lt_of_call hn)]
    have := nnn.isLt
    simp only [toNat_zext12]; omega
  case jp nnn =>
    have := nnn.isLt
    simp only [effect, State.setPc_pc, toNat_zext12]; omega
  case jpV0 nnn =>
    have := nnn.isLt
    have := (s.reg .v0).isLt
    simp only [effect, State.setPc_pc, toNat_jpV0_target]; omega
  case seImm | sneImm | seReg | sneReg | skp | sknp => exact (toNat_skipIf_pc_le _ s).trans (by omega)
  case ldKey x =>
    cases hk : s.lowestKey with
    | none =>
      simp only [effect, hk, State.setPc_pc, BitVec.toNat_sub, BitVec.toNat_ofNat]; omega
    | some k => simp only [effect, hk, State.setV_pc]; omega
  all_goals rw [h]; exact hpc.trans (by decide)

/-- After an effect every live return address is one that was live, or the address after a call (R21). -/
theorem toNat_effect_stack_le {i : Instr} {s : State} (hn : trapIn i s = none) (hpc : s.pc.toNat ≤ 0x1000)
    (hstack : ∀ k : Fin 16, k.val < s.sp.val → (s.stack.get k).toNat ≤ 0x1000) (k : Fin 16)
    (hk : k.val < (effect i s).sp.val) : ((effect i s).stack.get k).toNat ≤ 0x1000 := by
  by_cases hret : i = .ret
  · subst hret
    obtain ⟨j, hj⟩ := exists_sp_of_ret hn
    rw [effect_ret_of_sp hj] at hk ⊢
    have hkj : k.val < j.val := hk
    exact hstack k (by omega)
  by_cases hcall : ∃ nnn, i = .call nnn
  · obtain ⟨nnn, rfl⟩ := hcall
    rw [effect_call_of_sp nnn (sp_lt_of_call hn)] at hk ⊢
    simp only [Vector.get_eq_getElem, Vector.getElem_set] at hk ⊢
    split_ifs with hsp
    · exact hpc
    · exact hstack k (by omega)
  · obtain ⟨hsp, hst⟩ := effect_stack s (fun nnn h => hcall ⟨nnn, h⟩) hret
    rw [hst]
    exact hstack k (hsp ▸ hk)

/-! ## The invariant (R21) -/

/-- A faulted state has the invariant when its memory is canonical and initialisation is over. -/
theorem State.Inv.of_faulted {s : State} (hm : s.mem.wf) (hs : s.status = .faulted) (hi : s.initialising = false) : s.Inv :=
  ⟨hm, fun h => absurd hs h, fun h => absurd hs h, fun h => by rw [hi] at h; cases h⟩

theorem State.Inv.setMem {s : State} {m : Memory} (h : s.Inv) (hm : m.wf) : (s.setMem m).Inv :=
  ⟨hm, h.pcBound, h.stackBound, h.initRunning⟩

/-- A core that is not running is past initialisation (R140). -/
theorem State.Inv.not_initialising {s : State} (h : s.Inv) (hr : s.status ≠ .running) : s.initialising = false :=
  Bool.eq_false_iff.2 fun hi => hr (h.initRunning hi)

theorem inv_resetFrom (s : State) : s.resetFrom.Inv :=
  ⟨wf_reset, fun _ => by simp [State.resetFrom, State.reset, Config.pcReset],
    fun _ k hk => by simp [State.resetFrom, State.reset] at hk, fun _ => rfl⟩

/-- An instruction fetched within memory and completed keeps the invariant. -/
theorem inv_effect_advance {i : Instr} {s : State} (h : s.Inv) (hr : s.status = .running) (hpc : s.pc.toNat ≤ 0xFFE)
    (hn : trapIn i (advance s) = none) : (effect i (advance s)).Inv := by
  have hadv : (advance s).pc.toNat = s.pc.toNat + 2 := by
    rw [advance_pc, BitVec.toNat_add, BitVec.toNat_ofNat]; omega
  have hstack := h.stackBound (by rw [hr]; decide)
  refine ⟨wf_effect i _ h.memory hn, fun _ => ?_, fun _ => ?_, fun hi => ?_⟩
  · exact toNat_effect_pc_le hn (by omega) (by omega) hstack
  · exact toNat_effect_stack_le hn (by omega) hstack
  · rw [effect_initialising] at hi; cases hi

theorem inv_step {s t : State} (h : s.Inv) (hs : step s = .next t) : t.Inv := by
  rcases step_cases hs with ⟨-, rfl⟩ | ⟨-, tr, rfl, -⟩ | ⟨hr, i, hi, hn, rfl⟩
  · exact h
  · exact .of_faulted (Memory.wf_ofCells _) rfl rfl
  · exact inv_effect_advance h hr ((fetchInstr_ok_iff s i).1 hi).1 hn

/-! ## Transactions (R140) -/

/-- A call of the host that checks twice and is answered passed both checks. -/
theorem eq_of_checked {u v : State} {a b : Refusal} {closed ok : Bool}
    (h : (if closed then .refused a else if ok then .next v else .refused b : Result) = .next u) :
    closed = false ∧ ok = true ∧ u = v := by
  cases closed <;> cases ok <;> cases h
  exact ⟨rfl, rfl, rfl⟩

theorem setKeys_of_faulted {s : State} (k : Vector Bool 16) (hs : s.status = .faulted) :
    setKeys k s = .next s.unspecified := by simp only [setKeys, hs]

theorem tick_of_faulted {s : State} (hs : s.status = .faulted) : tick s = .next s.unspecified := by simp only [tick, hs]

theorem tick_of_not_faulted {s : State} (hs : s.status ≠ .faulted) :
    tick s = .next ((s.setDT (countDown s.DT)).setST (countDown s.ST)) := by
  cases h : s.status with
  | faulted => exact absurd h hs
  | running | halted => simp only [tick, h]

/-- What the next state of a transaction other than `reset` and `step` is: memory written by the host, during
initialisation; nothing changed; on a faulted core every element free; else the keys or the timers changed. -/
theorem transact_cases {tr : Transaction} {s u : State} (hreset : tr ≠ .reset) (hstep : tr ≠ .step)
    (h : transact tr s = .next u) :
    (s.initialising = true ∧ ∃ m, u = s.setMem m ∧ (s.mem.wf → m.wf)) ∨ u = s ∨
    (s.status = .faulted ∧ u = s.unspecified) ∨
    (s.status ≠ .faulted ∧ u = { s with keys := u.keys, DT := u.DT, ST := u.ST }) := by
  cases tr with
  | reset => exact absurd rfl hreset
  | step => exact absurd rfl hstep
  | loadFont bytes =>
    obtain ⟨hi, hok, rfl⟩ := eq_of_checked h
    refine .inl ⟨by simpa using hi, _, rfl, fun hm => Memory.wf_writeAll hm ?_⟩
    simp only [fontWellFormed, beq_iff_eq] at hok
    rw [hok]; decide
  | loadProgram bytes =>
    obtain ⟨hi, hok, rfl⟩ := eq_of_checked h
    refine .inl ⟨by simpa using hi, _, rfl, fun hm => Memory.wf_writeAll hm ?_⟩
    simp only [imageWellFormed, decide_eq_true_eq, Config.progMax] at hok
    simp only [Config.progBase, Config.memSize]; omega
  | hostWrite addr b =>
    obtain ⟨hi, hok, rfl⟩ := eq_of_checked h
    exact .inl ⟨by simpa using hi, _, rfl, fun hm => Memory.wf_write b hm (by simpa [addressWellFormed] using hok)⟩
  | hostRead addr =>
    simp only [transact, hostRead] at h
    split at h <;> cases h
    exact .inr (.inl rfl)
  | fbRead | statusRead => cases h; exact .inr (.inl rfl)
  | setKeys k =>
    by_cases hs : s.status = .faulted
    · rw [transact, setKeys_of_faulted k hs] at h; cases h
      exact .inr (.inr (.inl ⟨hs, rfl⟩))
    · rw [transact, setKeys_of_not_faulted k hs] at h; cases h
      exact .inr (.inr (.inr ⟨hs, rfl⟩))
  | tick =>
    by_cases hs : s.status = .faulted
    · rw [transact, tick_of_faulted hs] at h; cases h
      exact .inr (.inr (.inl ⟨hs, rfl⟩))
    · rw [transact, tick_of_not_faulted hs] at h; cases h
      exact .inr (.inr (.inr ⟨hs, rfl⟩))

theorem inv_transact {tr : Transaction} {s u : State} (hs : s.Inv) (h : transact tr s = .next u) : u.Inv := by
  by_cases hreset : tr = .reset
  · subst hreset; cases h; exact inv_resetFrom s
  by_cases hstep : tr = .step
  · subst hstep; exact inv_step hs h
  rcases transact_cases hreset hstep h with ⟨-, m, rfl, hm⟩ | rfl | ⟨hf, rfl⟩ | ⟨-, hu⟩
  · exact hs.setMem (hm hs.memory)
  · exact hs
  · exact .of_faulted (Memory.wf_ofCells _) hf (hs.not_initialising (by rw [hf]; decide))
  · rw [hu]; exact ⟨hs.memory, hs.pcBound, hs.stackBound, hs.initRunning⟩

/-- A schedule that ends in a next state went on from its first transaction's. -/
theorem exists_of_runSchedule_cons {tr : Transaction} {ts : List Transaction} {s u : State}
    (h : runSchedule (tr :: ts) s = .next u) : ∃ v, transact tr s = .next v ∧ runSchedule ts v = .next u := by
  rw [runSchedule] at h
  cases ht : transact tr s with
  | next v => rw [ht] at h; exact ⟨v, rfl, h⟩
  | fault f => rw [ht] at h; cases h
  | refused r => rw [ht] at h; cases h

/-- Every schedule keeps what every transaction keeps: the induction over the list. -/
theorem inv_runSchedule {ts : List Transaction} {s u : State} (hs : s.Inv) (h : runSchedule ts s = .next u) : u.Inv := by
  induction ts generalizing s with
  | nil => cases h; exact hs
  | cons tr ts ih =>
    obtain ⟨v, hv, hrest⟩ := exists_of_runSchedule_cons h
    exact ih (inv_transact hs hv) hrest

/-! ## Dead stack entries and an unset cause (R15, R18) -/

/-- `s` with other stack entries, another cause and other advisory information. -/
def State.withDead (s : State) (stack : Vector Word 16) (cause : Cause) (advisory : Advisory) : State :=
  { s with stack := stack, cause := cause, advisory := advisory }

section
variable {s t : State} {st : Vector Word 16} {c : Cause} {a : Advisory}

theorem sameLive_withDead (hst : ∀ k : Fin 16, k.val < s.sp.val → st.get k = s.stack.get k)
    (hf : s.status = .faulted → c = s.cause ∧ a = s.advisory) : s.SameLive (s.withDead st c a) :=
  ⟨rfl, rfl, rfl, rfl, hst, rfl, rfl, rfl, rfl, rfl, rfl, rfl, hf⟩

theorem State.SameLive.refl (s : State) : s.SameLive s := sameLive_withDead (fun _ _ => rfl) fun _ => ⟨rfl, rfl⟩

/-- Two states that agree on everything a rule reads differ in nothing but these three fields. -/
theorem State.SameLive.eq_withDead (h : s.SameLive t) : t = s.withDead t.stack t.cause t.advisory := by
  obtain ⟨hV, hI, hpc, hsp, -, hDT, hST, hkeys, hstatus, hmem, hinit, hfree, -⟩ := h
  cases t
  simp only at hV hI hpc hsp hDT hST hkeys hstatus hmem hinit hfree
  simp only [State.withDead, hV, hI, hpc, hsp, hDT, hST, hkeys, hstatus, hmem, hinit, hfree]

/-- No condition of R151 reads them. -/
theorem trapIn_withDead (i : Instr) : trapIn i (s.withDead st c a) = trapIn i s := by cases i <;> rfl

theorem skipIf_withDead (b : Bool) : skipIf b (s.withDead st c a) = (skipIf b s).withDead st c a := by cases b <;> rfl

/-- No effect but a call's and a return's reads or writes them. -/
theorem effect_withDead {i : Instr} (hcall : ∀ nnn, i ≠ .call nnn) (hret : i ≠ .ret) :
    effect i (s.withDead st c a) = (effect i s).withDead st c a := by
  cases i
  case call nnn => exact absurd rfl (hcall nnn)
  case ret => exact absurd rfl hret
  case seImm | sneImm | seReg | sneReg | skp | sknp => exact skipIf_withDead _
  case ldKey x =>
    have hk : (s.withDead st c a).lowestKey = s.lowestKey := rfl
    cases h : s.lowestKey <;> simp only [effect, hk, h] <;> rfl
  all_goals rfl

/-- Effects of states that agree on the rest agree on the rest. -/
theorem sameLive_effect {i : Instr} (hn : trapIn i s = none)
    (hst : ∀ k : Fin 16, k.val < s.sp.val → st.get k = s.stack.get k)
    (hf : s.status = .faulted → c = s.cause ∧ a = s.advisory) :
    (effect i s).SameLive (effect i (s.withDead st c a)) := by
  by_cases hret : i = .ret
  · subst hret
    obtain ⟨j, hj⟩ := exists_sp_of_ret hn
    rw [effect_ret_of_sp hj, effect_ret_of_sp (s := s.withDead st c a) hj]
    refine ⟨rfl, rfl, hst j (by omega), rfl, fun k hk => ?_, rfl, rfl, rfl, rfl, rfl, rfl, rfl, hf⟩
    have hkj : k.val < j.val := hk
    exact hst k (by omega)
  by_cases hcall : ∃ nnn, i = .call nnn
  · obtain ⟨nnn, rfl⟩ := hcall
    have hsp := sp_lt_of_call hn
    rw [effect_call_of_sp nnn hsp, effect_call_of_sp nnn (s := s.withDead st c a) hsp]
    refine ⟨rfl, rfl, rfl, rfl, fun k hk => ?_, rfl, rfl, rfl, rfl, rfl, rfl, rfl, hf⟩
    have hk' : k.val < s.sp.val + 1 := hk
    simp only [Vector.get_eq_getElem, Vector.getElem_set, State.withDead]
    split_ifs with hnew
    · rfl
    · exact hst k (by omega)
  · have hcall' : ∀ nnn, i ≠ .call nnn := fun nnn h => hcall ⟨nnn, h⟩
    obtain ⟨hsp, hstack⟩ := effect_stack s hcall' hret
    obtain ⟨-, hcause, hadvisory⟩ := effect_keys_cause_advisory i s
    rw [effect_withDead hcall' hret]
    refine sameLive_withDead (fun k hk => ?_) fun hfault => ?_
    · rw [hstack]; exact hst k (hsp ▸ hk)
    · rw [hcause, hadvisory]
      refine hf ?_
      rw [effect_status] at hfault
      split_ifs at hfault
      exact hfault

/-- Two answers of the machine that no later transaction tells apart. -/
def SameAnswer (r q : Result) : Prop :=
  match r with
  | .next s => ∃ t, q = .next t ∧ s.SameLive t
  | .fault f => q = .fault f
  | .refused e => q = .refused e

theorem sameAnswer_step (hst : ∀ k : Fin 16, k.val < s.sp.val → st.get k = s.stack.get k)
    (hf : s.status = .faulted → c = s.cause ∧ a = s.advisory) : SameAnswer (step s) (step (s.withDead st c a)) := by
  by_cases hr : s.status = .running
  · have hr' : (s.withDead st c a).status = .running := hr
    cases hi : fetchInstr s with
    | error tr =>
      rw [step_of_trap hr hi, step_of_trap hr' hi]
      exact ⟨_, rfl, .refl _⟩
    | ok i =>
      rw [step_of_instr hr hi, step_of_instr hr' hi]
      change SameAnswer (exec i (advance s)) (exec i ((advance s).withDead st c a))
      cases hn : trapIn i (advance s) with
      | some tr =>
        rw [exec_of_trap hn, exec_of_trap (by rw [trapIn_withDead, hn])]
        exact ⟨_, rfl, .refl _⟩
      | none =>
        rw [exec_of_no_trap hn, exec_of_no_trap (by rw [trapIn_withDead, hn])]
        exact ⟨_, rfl, sameLive_effect hn hst hf⟩
  · rw [step_not_running hr, step_not_running (s := s.withDead st c a) hr]
    exact ⟨_, rfl, sameLive_withDead hst hf⟩

/-- The host's writes check the same and write the same bytes into both. -/
theorem sameAnswer_checked {e₁ e₂ : Refusal} {closed ok : Bool} (h : s.SameLive t) :
    SameAnswer (if closed then .refused e₁ else if ok then .next s else .refused e₂)
      (if closed then .refused e₁ else if ok then .next t else .refused e₂) := by
  cases closed <;> cases ok
  case false.true => exact ⟨t, rfl, h⟩
  all_goals rfl

theorem sameAnswer_transact (tr : Transaction) (hst : ∀ k : Fin 16, k.val < s.sp.val → st.get k = s.stack.get k)
    (hf : s.status = .faulted → c = s.cause ∧ a = s.advisory) :
    SameAnswer (transact tr s) (transact tr (s.withDead st c a)) := by
  have hlive := sameLive_withDead hst hf
  have hfree : s.status = .faulted → s.unspecified.SameLive (s.withDead st c a).unspecified := fun h =>
    ⟨rfl, rfl, rfl, rfl, fun _ _ => rfl, rfl, rfl, rfl, rfl, rfl, rfl, rfl, fun _ => hf h⟩
  cases tr with
  | reset => exact ⟨_, rfl, .refl _⟩
  | loadFont bytes => exact sameAnswer_checked (sameLive_withDead (s := s.setMem _) hst hf)
  | loadProgram bytes => exact sameAnswer_checked (sameLive_withDead (s := s.setMem _) hst hf)
  | hostWrite addr b => exact sameAnswer_checked (sameLive_withDead (s := s.setMem _) hst hf)
  | hostRead addr => exact sameAnswer_checked (closed := false) (e₁ := .hostAddress) hlive
  | fbRead | statusRead => exact ⟨_, rfl, hlive⟩
  | setKeys k =>
    by_cases h : s.status = .faulted
    · rw [transact, transact, setKeys_of_faulted k h, setKeys_of_faulted (s := s.withDead st c a) k h]
      exact ⟨_, rfl, hfree h⟩
    · rw [transact, transact, setKeys_of_not_faulted k h, setKeys_of_not_faulted (s := s.withDead st c a) k h]
      exact ⟨_, rfl, sameLive_withDead (s := s.setKeys k) hst hf⟩
  | tick =>
    by_cases h : s.status = .faulted
    · rw [transact, transact, tick_of_faulted h, tick_of_faulted (s := s.withDead st c a) h]
      exact ⟨_, rfl, hfree h⟩
    · rw [transact, transact, tick_of_not_faulted h, tick_of_not_faulted (s := s.withDead st c a) h]
      exact ⟨_, rfl, sameLive_withDead (s := (s.setDT _).setST _) hst hf⟩
  | step => exact sameAnswer_step hst hf

/-- The host reads the cause only from a faulted core. -/
theorem reply_withDead (tr : Transaction) (hf : s.status = .faulted → c = s.cause ∧ a = s.advisory) :
    reply tr (s.withDead st c a) = reply tr s := by
  cases tr
  case statusRead =>
    cases h : s.status with
    | faulted =>
      obtain ⟨rfl, rfl⟩ := hf h
      rfl
    | running | halted => simp only [reply, State.withDead, h]
  all_goals rfl

end

/-! ## The statements -/

/-- Settles O45: a step leaves the state, takes a fault, or is an effect, which keeps the bounds. -/
theorem stepKeepsTheInvariant : Obligations.StepKeepsTheInvariant := fun _ _ => inv_step

/-- Settles O46: every reset state has the invariant, `State.reset` being the one whose counter is 0. -/
theorem resetStateMeetsTheInvariant : Obligations.ResetStateMeetsTheInvariant := inv_resetFrom State.reset

/-- Settles O47: `transact_cases` lists the next states, and each keeps the invariant. -/
theorem transactionsKeepTheInvariant : Obligations.TransactionsKeepTheInvariant := fun _ _ _ => inv_transact

/-- Settles O48: the invariant along the schedule, by induction over it, and its two bounds at the end. -/
theorem everyScheduleKeepsPcAndStackInRange : Obligations.EveryScheduleKeepsPcAndStackInRange := by
  intro ts s t hs h
  have ht := inv_runSchedule hs h
  exact ⟨ht, fun hf => ⟨ht.pcBound hf, ht.stackBound hf⟩⟩

/-- Settles O49: the second state is the first with other dead entries and another unset cause, and no transaction tells
the two apart. -/
theorem deadStackEntriesAndUnsetCauseHaveNoInfluence : Obligations.DeadStackEntriesAndUnsetCauseHaveNoInfluence := by
  intro tr s t h
  have hanswer := sameAnswer_transact tr h.liveStack h.fault
  have hreply := reply_withDead (st := t.stack) tr h.fault
  rw [← h.eq_withDead] at hanswer hreply
  refine ⟨hreply.symm, fun r hr => ?_, fun s' hs' => ?_⟩
  · rw [hr] at hanswer; exact hanswer
  · rw [hs'] at hanswer; exact hanswer

/-- Settles O43: past initialisation the host writes nothing, a step of a core that is not running does nothing, and what
the other transactions change is neither status nor, on a halted core, anything but the keys and the timers. -/
theorem onlyResetLeavesHaltedAndFaulted : Obligations.OnlyResetLeavesHaltedAndFaulted := by
  intro tr s u hs hreset h
  by_cases hr : s.status = .running
  · rw [hr]; exact ⟨nofun, nofun⟩
  have hu : u = s ∨ (s.status = .faulted ∧ u = s.unspecified) ∨
      (s.status ≠ .faulted ∧ u = { s with keys := u.keys, DT := u.DT, ST := u.ST }) := by
    by_cases hstep : tr = .step
    · subst hstep
      rw [transact, step_not_running hr] at h
      cases h; exact .inl rfl
    · refine (transact_cases hreset hstep h).resolve_left fun ⟨hi, _⟩ => ?_
      rw [hs.not_initialising hr] at hi; cases hi
  rcases hu with rfl | ⟨hf, rfl⟩ | ⟨hf, hu⟩
  · exact ⟨fun hf => ⟨hf, rfl, rfl⟩, fun hh => ⟨hh, rfl, rfl, rfl, rfl, rfl, rfl⟩⟩
  · rw [hf]; exact ⟨fun _ => ⟨hf, rfl, rfl⟩, nofun⟩
  · rw [hu]; exact ⟨fun h' => absurd h' hf, fun hh => ⟨hh, rfl, rfl, rfl, rfl, rfl, rfl⟩⟩

end Sys2Proof.Machine

/-! # The host's transactions

SUPPORT. Each transaction of the host in closed form, and from that the statements on reset, the loaders, the reads, the
keys, the timers and the first step of a loaded program (R140 to R147, R170, R172). -/
namespace Sys2Proof.Machine

/-! ## The host's writes (R141 to R143) -/

theorem transact_loadFont_ok {bytes : List Byte} {s : State} (hi : s.initialising = true) (hl : bytes.length = 80) :
    transact (.loadFont bytes) s = .next (s.setMem (s.mem.writeAll 0x050 bytes)) := by
  simp [transact, loadFont, fontWellFormed, hi, hl]

theorem transact_loadProgram_ok {bytes : List Byte} {s : State} (hi : s.initialising = true) (hl : bytes.length ≤ 3584) :
    transact (.loadProgram bytes) s = .next (s.setMem (s.mem.writeAll 0x200 bytes)) := by
  simp [transact, loadProgram, imageWellFormed, hi, hl]

theorem transact_hostWrite_ok {a : Nat} (b : Byte) {s : State} (hi : s.initialising = true) (ha : a ≤ 0xFFF) :
    transact (.hostWrite a b) s = .next (s.setMem (s.mem.write a b)) := by
  simp [transact, hostWrite, addressWellFormed, hi, show a < 0x1000 by omega]

/-- A call of the host that fails one of its two checks is refused. -/
theorem refused_of_checked {t : State} {e₁ e₂ : Refusal} {init ok : Bool} (h : init = false ∨ ok = false) :
    ∃ r, (if !init then .refused e₁ else if ok then .next t else .refused e₂ : Result) = .refused r := by
  cases init
  · exact ⟨e₁, rfl⟩
  · obtain rfl : ok = false := by simpa using h
    exact ⟨e₂, rfl⟩

/-- Memory after the loaders' copy holds the list, in order (R141, R142). -/
theorem getElem?_eq_read_writeAll (m : Memory) (a : Nat) {bs : List Byte} {j : Nat} (h : j < bs.length) :
    bs[j]? = some ((m.writeAll a bs).read (a + j)) := by
  rw [Memory.read_writeAll_add m a h, List.getD_eq_getElem _ _ h, List.getElem?_eq_getElem h]

theorem getElem?_readAll (m : Memory) (a : Nat) {n k : Nat} (h : k < n) : (m.readAll a n)[k]? = some (m.read (a + k)) := by
  simp [Memory.readAll, h]

/-! ## Addresses, schedules and timers -/

theorem addressWellFormed_iff (a : Nat) : addressWellFormed a = true ↔ a ≤ 0xFFF := by
  simp only [addressWellFormed, decide_eq_true_eq, Config.memSize]; omega

/-- Bytes written at `pc` are the word the next fetch reads, the first in its high half (R34, R43). -/
theorem wordAtPc_of_writeAll {s : State} {m : Memory} {hi lo : Byte} {rest : List Byte}
    (h : s.mem = m.writeAll s.pc.toNat (hi :: lo :: rest)) : s.wordAtPc = Word.ofBytes hi lo := by
  have hhi : s.mem.read s.pc.toNat = hi := h ▸ m.read_writeAll_add _ (k := 0) (by simp)
  have hlo : s.mem.read (s.pc.toNat + 1) = lo := h ▸ m.read_writeAll_add _ (k := 1) (by simp)
  rw [State.wordAtPc, hhi, hlo]

/-- A schedule goes on from its first transaction's next state. -/
theorem runSchedule_cons {tr : Transaction} {s u : State} (ts : List Transaction) (h : transact tr s = .next u) :
    runSchedule (tr :: ts) s = runSchedule ts u := by rw [runSchedule, h]

/-- The reset program counter is within memory (R170). -/
theorem toNat_resetFrom_pc_le (s : State) : s.resetFrom.pc.toNat ≤ 0xFFE := (by decide : Config.pcReset.toNat ≤ 0xFFE)

/-- Counting down is subtraction clamped at zero (R145). -/
theorem toNat_countDown (v : Byte) : (countDown v).toNat = v.toNat - 1 := by
  unfold countDown
  split_ifs with h
  · rw [h]; rfl
  · have hv : v.toNat ≠ 0 := fun h0 => h (BitVec.eq_of_toNat_eq h0)
    have := v.isLt
    rw [toNat_sub_byte, BitVec.toNat_ofNat]; omega

/-! ## The statements -/

/-- Settles O50: `resetFrom` is `State.reset` but for the counter of free values. -/
theorem resetPutsEveryElementAtItsValue : Obligations.ResetPutsEveryElementAtItsValue := by
  refine fun s => ⟨s.resetFrom, rfl, rfl, Memory.read_nil, fun r => ?_, rfl, rfl, rfl, rfl, fun k => ?_, rfl, rfl⟩
  · simp [State.reg, State.resetFrom, State.reset, Vector.get_eq_getElem]
  · simp [State.resetFrom, State.reset, Vector.get_eq_getElem]

/-- Settles O51: `set_keys` by whether the core is FAULTED. -/
theorem setKeysReplacesAllSixteen : Obligations.SetKeysReplacesAllSixteen :=
  fun k _ => ⟨setKeys_of_not_faulted k, fun hs => ⟨_, setKeys_of_faulted k hs, hs, rfl⟩⟩

/-- Settles O52: short of FAULTED, `tick` sets each timer to its count down and nothing else. -/
theorem tickCountsBothTimersDownToZero : Obligations.TickCountsBothTimersDownToZero :=
  fun _ hs => ⟨_, tick_of_not_faulted hs, toNat_countDown _, toNat_countDown _, rfl⟩

/-- Settles O53: during initialisation and within its contract each call writes its bytes into memory, and outside it
fails one of its two checks. -/
theorem loadersWriteTheirBytesDuringInitialisation : Obligations.LoadersWriteTheirBytesDuringInitialisation := by
  intro bytes a b s
  refine ⟨fun hi hl => ?_, fun hi hl => ?_, fun hi ha => ?_, fun h => ?_, fun h => ?_, fun h => ?_⟩
  · exact ⟨_, transact_loadFont_ok hi hl, fun j hj => getElem?_eq_read_writeAll _ _ (by omega),
      fun c hc => s.mem.read_writeAll_outside (by omega), rfl⟩
  · exact ⟨_, transact_loadProgram_ok hi hl, fun j hj => getElem?_eq_read_writeAll _ _ hj,
      fun c hc => s.mem.read_writeAll_outside hc, rfl⟩
  · exact ⟨_, transact_hostWrite_ok b hi ha, s.mem.read_write_same a b, fun c hc => s.mem.read_write_ne b hc, rfl⟩
  · exact refused_of_checked (h.imp_right fun hl => by simpa [fontWellFormed] using hl)
  · exact refused_of_checked (h.imp_right fun hl => by simpa [imageWellFormed] using hl)
  · exact refused_of_checked (h.imp_right fun ha => Bool.eq_false_iff.2 fun hok => by
      rw [addressWellFormed_iff] at hok; omega)

/-- Settles O54: the reply is `readAll` over the framebuffer, and `transact` answers the state itself. -/
theorem framebufferReadReturnsItsBytes : Obligations.FramebufferReadReturnsItsBytes :=
  fun s => ⟨rfl, _, rfl, s.mem.length_readAll _ _, fun _ hk => getElem?_readAll s.mem _ hk⟩

/-- Settles O55: `host_read` by its address check, `status_read` by the status. -/
theorem hostReadsReturnWhatTheCoreHolds : Obligations.HostReadsReturnWhatTheCoreHolds := by
  intro a s
  refine ⟨fun ha => ?_, fun ha => ?_, rfl, fun hf => ?_, fun hf => ?_⟩
  · have hok := (addressWellFormed_iff a).2 ha
    exact ⟨if_pos hok, if_pos hok⟩
  · exact ⟨.hostAddress, if_neg fun hok => by rw [addressWellFormed_iff] at hok; omega⟩
  · simp only [reply, hf]
  · cases hs : s.status with
    | faulted => exact absurd hs hf
    | running | halted => simp only [reply, hs]

/-- Settles O56: the image's first two bytes stand at `pc`; and with nothing loaded two zero bytes do, the halt word. -/
theorem firstStepRunsTheLoadedProgram : Obligations.FirstStepRunsTheLoadedProgram := by
  intro hi lo rest i s hlen hdec
  constructor
  · obtain ⟨t, ht⟩ : ∃ t, t = s.resetFrom.setMem (Memory.writeAll s.resetFrom.mem 0x200 (hi :: lo :: rest)) := ⟨_, rfl⟩
    have hload : transact (.loadProgram (hi :: lo :: rest)) s.resetFrom = .next t := ht ▸ transact_loadProgram_ok rfl hlen
    have hpc : t.pc = 0x200 := ht ▸ rfl
    have hword : t.wordAtPc = Word.ofBytes hi lo := wordAtPc_of_writeAll (m := s.resetFrom.mem) (by rw [hpc, ht]; rfl)
    have hfetch : fetchInstr t = .ok i := (fetchInstr_ok_iff t i).2 ⟨by rw [hpc]; decide, hword ▸ hdec⟩
    refine ⟨t, (runSchedule_cons _ rfl).trans (runSchedule_cons [] hload), hpc, (step_of_instr (ht ▸ rfl) hfetch).trans ?_⟩
    rw [advance, hpc]; rfl
  · have hfetch := (fetchInstr_eq_halt_iff s.resetFrom).2 ⟨toNat_resetFrom_pc_le s, rfl, rfl⟩
    have hstep : transact .step s.resetFrom = .next (effect .halt (advance s.resetFrom)) := step_of_instr rfl hfetch
    exact ⟨effect .halt (advance s.resetFrom), (runSchedule_cons _ rfl).trans (runSchedule_cons [] hstep), rfl, rfl⟩

end Sys2Proof.Machine

/-! # The other forms of control flow, registers and memory

SUPPORT. The right shift and the 16-bit accesses as numbers, and from that and the laws above the statements on CALL and
JP V0 (R82, R83), the copies and the logic (R92 to R95), SHR, SUBN and RND (R98, R99, R101), the forms of `I` (R111, R112),
the accesses to memory (R33 to R35, R43, R114, R115) and the keys (R133 to R135). -/
namespace Sys2Proof.Machine

/-! ## Results as numbers -/

/-- Bit 0 of a byte is its remainder by 2 (R98). -/
theorem toNat_shiftedOutLow (a : Byte) : (shiftedOutLow a).toNat = a.toNat % 2 := by
  rw [shiftedOutLow, toNat_flagByte, ← BitVec.testBit_toNat, Nat.testBit_eq_decide_div_mod_eq, pow_zero, Nat.div_one]
  simp only [decide_eq_true_eq]
  split_ifs <;> omega

/-- A right shift by one halves. -/
theorem toNat_ushiftRight_one (a : Byte) : (a >>> 1).toNat = a.toNat / 2 := by
  rw [BitVec.toNat_ushiftRight, Nat.shiftRight_eq_div_pow, pow_one]

/-- The font formula does not wrap for any byte (R112). -/
theorem toNat_glyphAddr (v : Byte) : (glyphAddr v).toNat = 0x050 + 5 * v.toNat := by
  have := v.isLt
  simp only [glyphAddr, BitVec.toNat_ofNat, Config.fontBase, Config.fontCharSize]; omega

theorem toNat_word_lo (w : Word) : w.lo.toNat = w.toNat % 256 := BitVec.toNat_ofNat _ _

theorem toNat_word_hi (w : Word) : w.hi.toNat = w.toNat / 256 := by
  have := word_lt w
  rw [BitVec.toNat_ofNat]; omega

/-! ## Registers, one and several -/

/-- An instruction that writes one register bit by bit leaves the other registers and every other field. -/
theorem exec_setV_bits {i : Instr} {s : State} {x : Reg} {v : Byte} {f : Nat → Bool} (h : exec i s = .next (s.setV x v))
    (hf : ∀ k, v.getLsbD k = f k) :
    ∃ t, exec i s = .next t ∧ (∀ k < 8, (t.reg x).getLsbD k = f k) ∧ (∀ r, r ≠ x → t.reg r = s.reg r) ∧
      t = { s with V := t.V } := by
  obtain ⟨t, hexec, hx, hframe⟩ := exec_setV_frame h
  exact ⟨t, hexec, fun k _ => hx ▸ hf k, hframe⟩

/-- The registers stored, when there are at least two, begin with `V0` and `V1` (R114). -/
theorem regsUpTo_eq_cons (s : State) {x : Reg} (h : 1 ≤ x.val) : ∃ rest, s.regsUpTo x = s.reg 0 :: s.reg 1 :: rest := by
  have h0 := s.getD_regsUpTo (x := x) (r := 0) (Fin.zero_le x) 0
  have h1 := s.getD_regsUpTo (x := x) (r := 1) h 0
  have hlen := s.length_regsUpTo x
  match hr : s.regsUpTo x with
  | [] | [_] => rw [hr] at hlen; simp only [List.length_cons, List.length_nil] at hlen; omega
  | a :: b :: rest =>
    rw [hr] at h0 h1
    exact ⟨rest, by rw [← h0, ← h1]; rfl⟩

/-! ## Keys -/

/-- The lowest held key is the one that is held with none below it (R135). -/
theorem lowestKey_eq_some {s : State} {k : Fin 16} (hk : s.keys.get k = true) (hlow : ∀ j, j < k → s.keys.get j = false) :
    s.lowestKey = some k := by
  cases h : s.lowestKey with
  | none => rw [State.lowestKey_none.1 h k] at hk; cases hk
  | some j =>
    obtain ⟨hj, hjlow⟩ := State.lowestKey_some h
    rcases lt_trichotomy j k with hlt | rfl | hlt
    · rw [hlow j hlt] at hj; cases hj
    · rfl
    · rw [hjlow k hlt] at hk; cases hk

/-- A wait with no key held goes back to its own address (R135). -/
theorem exec_ldKey_waiting (x : Reg) {s : State} (h : ∀ k, s.keys.get k = false) :
    exec (.ldKey x) s = .next { s with pc := s.pc - 2 } := by
  rw [exec_of_no_trap rfl]
  simp only [effect, State.lowestKey_none.2 h]
  rfl

/-- The key that a register's value names, when it is an index at most 15 (R133, R134). -/
theorem keyIndex_eq {v : Byte} {k : Fin 16} (h : v.toNat = k.val) : Fin.ofNat 16 v.toNat = k := by
  rw [h]; exact Fin.ofNat_val_eq_self k

/-! ## Control flow (spec/41_control_flow.md) -/

/-- Settles O10: with 16 live entries `trapIn` lists the overflow; else the effect is `effect_call_of_sp`. -/
theorem callPushesTheAdvancedPcAndJumps : Obligations.CallPushesTheAdvancedPcAndJumps := by
  intro nnn s
  refine ⟨decode_call nnn, fun h => faultsWith_of_trap (if_pos h), fun k hk => ?_⟩
  have hn : trapIn (.call nnn) s = none := if_neg (by omega)
  refine ⟨_, exec_eq_next hn (effect_call_of_sp nnn (sp_lt_of_call hn)), toNat_zext12 nnn, congrArg (· + 1) hk, ?_,
    fun j hj => ?_, rfl⟩
  · simp [Vector.get_eq_getElem, hk]
  · have hjk : s.sp.val ≠ j.val := by omega
    simp [Vector.get_eq_getElem, hjk]

/-- Settles O11: the call leaves its return address as the newest live entry, which the return pops. -/
theorem callThenRetReturnsAfterTheCall : Obligations.CallThenRetReturnsAfterTheCall := by
  intro nnn s t u hroom hcall husp hustack
  obtain ⟨k, hk⟩ : ∃ k : Fin 16, s.sp.val = k.val := ⟨⟨s.sp.val, hroom⟩, rfl⟩
  obtain ⟨t', hcall', -, htsp, htop, -⟩ := (callPushesTheAdvancedPcAndJumps nnn s).2.2 k hk
  obtain rfl : t = t' := by rw [hcall] at hcall'; cases hcall'; rfl
  obtain ⟨v, hret, hvpc, hvsp, -⟩ := (retPopsTheNewestReturnAddress.2 u).2 k (by rw [husp, htsp])
  refine ⟨v, hret, ?_, Fin.ext (hvsp.trans hk.symm)⟩
  rw [hvpc, hustack k (by omega), htop]

/-- Settles O12: the effect writes the sum to `pc`, and the sum does not wrap. -/
theorem indexedJumpAddsV0 : Obligations.IndexedJumpAddsV0 :=
  fun nnn _ => ⟨decode_jpV0 nnn, _, exec_of_no_trap rfl, toNat_jpV0_target nnn _, rfl⟩

/-! ## Registers (spec/42_load_and_alu.md) -/

/-- Settles O16: each of the four writes its destination alone, bit by bit. -/
theorem copyAndLogicLeaveVFAlone : Obligations.CopyAndLogicLeaveVFAlone := fun x y _ =>
  ⟨(congrArg decode (ofNat_subOpcode_eq_formatXYN 0x8 x y 0x0)).trans (decode_ldReg x y),
   (congrArg decode (ofNat_subOpcode_eq_formatXYN 0x8 x y 0x1)).trans (decode_orReg x y),
   (congrArg decode (ofNat_subOpcode_eq_formatXYN 0x8 x y 0x2)).trans (decode_andReg x y),
   (congrArg decode (ofNat_subOpcode_eq_formatXYN 0x8 x y 0x3)).trans (decode_xorReg x y),
   exec_setV_frame (exec_of_no_trap rfl),
   exec_setV_bits (exec_of_no_trap rfl) fun _ => BitVec.getLsbD_or,
   exec_setV_bits (exec_of_no_trap rfl) fun _ => BitVec.getLsbD_and,
   exec_setV_bits (exec_of_no_trap rfl) fun _ => BitVec.getLsbD_xor⟩

/-- Settles O19: both forms write result and flag; the shift names `x` alone. -/
theorem shiftRightAndReverseSubtract : Obligations.ShiftRightAndReverseSubtract := fun x y _ =>
  ⟨(congrArg decode (ofNat_subOpcode_eq_formatXYN 0x8 x y 0x6)).trans (decode_shr x y),
   (congrArg decode (ofNat_subOpcode_eq_formatXYN 0x8 x y 0x7)).trans (decode_subn x y),
   exec_resultAndFlag_frame (exec_of_no_trap rfl) (toNat_shiftedOutLow _) (toNat_ushiftRight_one _),
   exec_resultAndFlag_frame (exec_of_no_trap rfl) (toNat_noBorrowFlag _ _) (toNat_sub_byte _ _)⟩

/-- Settles O20: the byte is the one drawn, and the draw moves the counter of free values alone. -/
theorem randomIsMaskedByTheImmediate : Obligations.RandomIsMaskedByTheImmediate := by
  intro x nn s
  have hx : (effect (.rnd x nn) s).reg x = s.drawRandom.1 &&& nn := State.reg_setV_same _ x _
  refine ⟨(congrArg decode (ofNat_eq_formatXN 0xC x nn)).trans (decode_rnd x nn), s.drawRandom.1, _, exec_of_no_trap rfl,
    hx, fun k _ hk => ?_, fun q hq => State.reg_setV_ne _ _ hq, rfl⟩
  rw [hx, BitVec.getLsbD_and, hk, Bool.and_false]

/-! ## Index register and memory (spec/43_index_and_memory.md, spec/20_memory.md) -/

/-- Settles O22: both effects write `I` alone, the first a sum of words, the second a sum that does not wrap. -/
theorem addToIndexAndFontAddress : Obligations.AddToIndexAndFontAddress := by
  intro x s
  refine ⟨(congrArg decode (ofNat_subOpcode_eq_formatXN 0xF x 0x1E)).trans (decode_addI x),
    (congrArg decode (ofNat_subOpcode_eq_formatXN 0xF x 0x29)).trans (decode_ldFont x),
    ⟨_, exec_of_no_trap rfl, ?_, rfl⟩, ⟨_, exec_of_no_trap rfl, toNat_glyphAddr _, rfl⟩⟩
  rw [effect, State.setI_I, BitVec.toNat_add, toNat_zext8]

/-- Settles O26: the store leaves memory holding the registers, and the load takes what memory holds. -/
theorem storeThenLoadRestoresTheRegisters : Obligations.StoreThenLoadRestoresTheRegisters := by
  intro x s t u hfit hstore hI hmem
  obtain ⟨t', hstore', hstored, -, hframe⟩ := (storeWritesV0ToVx x s).2.1 hfit
  obtain rfl : t = t' := by rw [hstore] at hstore'; cases hstore'; rfl
  obtain ⟨v, hload, hloaded, habove, -⟩ := (loadReadsV0ToVx x u).2.1 (by rwa [hI])
  refine ⟨by rw [hframe], v, hload, fun k hk => ?_, habove⟩
  rw [hloaded k hk, hI, hmem k hk, hstored k hk]

/-- Settles O27: the store writes `V0` and `V1` at `pc`, so they are the word that the next step fetches. -/
theorem storedWordIsTheNextInstruction : Obligations.StoredWordIsTheNextInstruction := by
  intro x s t i hx hr hI hfit hstore hdec
  have hn : trapIn (.store x) s = none := if_neg (by omega)
  obtain rfl := eq_effect_of_exec hstore hn
  obtain ⟨rest, hregs⟩ := regsUpTo_eq_cons s hx
  have hword : (effect (.store x) s).wordAtPc = Word.ofBytes (s.reg 0) (s.reg 1) :=
    wordAtPc_of_writeAll (m := s.mem) (rest := rest) (by simp only [effect, State.setMem_mem, State.setMem_pc, hregs, hI])
  have hpc : (effect (.store x) s).pc.toNat ≤ 0xFFE := by
    rw [hI] at hfit
    simp only [effect, State.setMem_pc]; omega
  exact step_of_instr hr ((fetchInstr_ok_iff _ i).2 ⟨hpc, hword ▸ hdec⟩)

/-- Settles O28: the checked accessors by their bound, and a write by what is read after it. -/
theorem byteAccessIsCheckedAndExact : Obligations.ByteAccessIsCheckedAndExact :=
  fun m a v => ⟨fun ha => ⟨memRead_ok m ha, _, memWrite_ok m v ha, m.read_write_same a v, fun _ hb => m.read_write_ne v hb,
    fun hm => Memory.wf_write v hm (Nat.lt_succ_of_le ha)⟩, fun ha => ⟨memRead_error m ha, memWrite_error m v ha⟩⟩

/-- Settles O29: the two bytes of a word at their two addresses, and the word they make. -/
theorem wordAccessIsBigEndian : Obligations.WordAccessIsBigEndian := by
  intro m a v
  refine ⟨fun ha => ⟨⟨_, memRead16_ok m ha, toNat_wordOfBytes _ _⟩, _, memWrite16_ok m v ha, ?_⟩,
    fun ha => ⟨memRead16_error m ha, memWrite16_error m v ha⟩⟩
  have hhi : ((m.write a v.hi).write (a + 1) v.lo).read a = v.hi := by
    rw [Memory.read_write_ne _ _ (by omega), Memory.read_write_same]
  have hlo : ((m.write a v.hi).write (a + 1) v.lo).read (a + 1) = v.lo := Memory.read_write_same _ _ _
  refine ⟨by rw [hhi, toNat_word_hi], by rw [hlo, toNat_word_lo], fun b hb hb' => ?_, ?_⟩
  · rw [Memory.read_write_ne _ _ hb', Memory.read_write_ne _ _ hb]
  · rw [memRead16_ok _ ha, hhi, hlo, Word.ofBytes_hi_lo]

/-! ## Keys (spec/45_timers_and_keys.md) -/

/-- Settles O36: above 15 `trapIn` lists the fault; else both effects are skips on the key named. -/
theorem keySkipsTestTheNamedKey : Obligations.KeySkipsTestTheNamedKey := by
  intro x s
  refine ⟨(congrArg decode (ofNat_subOpcode_eq_formatXN 0xE x 0x9E)).trans (decode_skp x),
    (congrArg decode (ofNat_subOpcode_eq_formatXN 0xE x 0xA1)).trans (decode_sknp x), fun k hk => ?_,
    fun h => ⟨faultsWith_of_trap (if_pos h), faultsWith_of_trap (if_pos h)⟩⟩
  have hle : ¬15 < (s.reg x).toNat := by omega
  refine ⟨exec_eq_next (if_neg hle) ?_, exec_eq_next (if_neg hle) ?_⟩ <;> rw [effect, keyIndex_eq hk]
  · rfl
  · cases s.keys.get k <;> rfl

/-- Settles O37: the wait by whether a key is held; as a step it goes back by the two that the advance went on. -/
theorem keyWaitTakesTheLowestHeldKey : Obligations.KeyWaitTakesTheLowestHeldKey := by
  intro x s
  refine ⟨(congrArg decode (ofNat_subOpcode_eq_formatXN 0xF x 0x0A)).trans (decode_ldKey x), exec_ldKey_waiting x,
    fun k hk hlow => ?_, fun hr hpc hdec hnone => ?_⟩
  · have heff : effect (.ldKey x) s = s.setV x (BitVec.ofNat 8 k.val) := by
      simp only [effect, lowestKey_eq_some hk hlow]
    obtain ⟨t, hexec, hx, hframe⟩ := exec_setV_frame (exec_eq_next rfl heff)
    refine ⟨t, hexec, ?_, hframe⟩
    rw [hx, BitVec.toNat_ofNat]; omega
  · rw [step_of_instr hr ((fetchInstr_ok_iff s _).2 ⟨hpc, hdec⟩), exec_ldKey_waiting x (s := advance s) hnone]
    have hback : s.pc + 2#16 - 2 = s.pc := by simp
    simp only [advance, hback]

end Sys2Proof.Machine

/-! # The sprite engine

SUPPORT. What a completed draw leaves, in terms of the canvas it draws on, and from that the statements on DRW (R122). -/
namespace Sys2Proof.Machine

/-- What `n` rows of the sprite at `I` leave, drawn at (Vx, Vy) on the memory of a state (R122). -/
def State.drawn (s : State) (x y : Reg) (n : Nat) : Canvas :=
  Canvas.drawSprite (s.reg x).toNat n ⟨s.mem, false⟩ s.I.toNat (s.reg y).toNat

/-- A draw whose rows can all be read leaves the canvas' memory, the collision flag in VF, and every other register and
field as it was. -/
theorem exec_drw_frame (x y : Reg) {n : Fin 16} {s : State} (h : n.val = 0 ∨ s.I.toNat + n.val ≤ 0x1000) :
    ∃ t, exec (.drw x y n) s = .next t ∧ t.mem = (s.drawn x y n.val).mem ∧
      t.reg 15 = flagByte (s.drawn x y n.val).collision ∧ (∀ r, r ≠ 15 → t.reg r = s.reg r) ∧
      t = { s with V := t.V, mem := t.mem } := by
  have hn : trapIn (.drw x y n) s = none := if_neg (by omega)
  exact ⟨_, exec_of_no_trap hn, rfl, State.reg_setV_same _ _ _, fun r hr => State.reg_setV_ne _ _ hr, rfl⟩

/-! ## Flags that report -/

/-- A flag that reports whether two properties meet on the screen: 1 and a place where they do, or 0 and no such place. -/
theorem flagByte_reports {b : Bool} {p q : Nat → Nat → Bool}
    (h : b = true ↔ ∃ px py, px ≤ 63 ∧ py ≤ 31 ∧ p px py = true ∧ q px py = true) :
    (flagByte b = 1 ∧ ∃ px py, px ≤ 63 ∧ py ≤ 31 ∧ p px py = true ∧ q px py = true) ∨
      (flagByte b = 0 ∧ ∀ px py, px ≤ 63 → py ≤ 31 → p px py = true → q px py = false) := by
  rcases flagByte_cases b with ⟨h1, hb⟩ | ⟨h0, hb⟩
  · exact .inl ⟨h1, h.1 hb⟩
  · refine .inr ⟨h0, fun px py hx hy hp => Bool.eq_false_iff.2 fun hq => ?_⟩
    rw [h.2 ⟨px, py, hx, hy, hp, hq⟩] at hb
    cases hb

/-- The same of a flag that also carries an earlier one on. -/
theorem flagByte_reports_or {b b₀ : Bool} {p q : Nat → Nat → Bool}
    (h : b = true ↔ b₀ = true ∨ ∃ px py, px ≤ 63 ∧ py ≤ 31 ∧ p px py = true ∧ q px py = true) :
    (flagByte b = 1 ∧ (flagByte b₀ = 1 ∨ ∃ px py, px ≤ 63 ∧ py ≤ 31 ∧ p px py = true ∧ q px py = true)) ∨
      (flagByte b = 0 ∧ flagByte b₀ = 0 ∧ ∀ px py, px ≤ 63 → py ≤ 31 → p px py = true → q px py = false) := by
  cases b₀ with
  | true =>
    obtain rfl := h.2 (.inl rfl)
    exact .inl ⟨rfl, .inl rfl⟩
  | false =>
    rcases flagByte_reports (h.trans (or_iff_right Bool.false_ne_true)) with ⟨h1, hmeet⟩ | ⟨h0, hnone⟩
    · exact .inl ⟨h1, .inr hmeet⟩
    · exact .inr ⟨h0, rfl, hnone⟩

theorem flagByte_eq_one_iff (b : Bool) : flagByte b = 1 ↔ b = true := by cases b <;> decide

/-! ## The canvas of a state -/

theorem sameOutsideFramebuffer_drawn (s : State) (x y : Reg) (n : Nat) :
    sameOutsideFramebuffer s.mem (s.drawn x y n).mem :=
  fun _ ha => Canvas.read_drawSprite_outside _ _ _ _ _ ha

/-- One row more: the byte then at `I + n`, drawn on the row `Vy + n`. -/
theorem drawn_succ (s : State) (x y : Reg) (n : Nat) :
    s.drawn x y (n + 1) =
      (s.drawn x y n).drawCols (s.reg x).toNat ((s.reg y).toNat + n) ((s.drawn x y n).mem.read (s.I.toNat + n)) 8 :=
  Canvas.drawSprite_succ_last _ _ _ _ _

theorem pixel_drawn_succ (s : State) (x y : Reg) (n : Nat) {px py : Nat} (hx : px ≤ 63) (hy : py ≤ 31) :
    pixel (s.drawn x y (n + 1)).mem px py = (pixel (s.drawn x y n).mem px py ^^
      spriteCovers (s.drawn x y n).mem (s.I.toNat + n) (s.reg x).toNat ((s.reg y).toNat + n) 1 px py) := by
  rw [drawn_succ, Canvas.pixel_drawCols _ _ _ _ _ (Nat.lt_succ_of_le hx) (Nat.lt_succ_of_le hy), spriteCovers_one]

/-- One row more collides when the rows before did, or when it flips a pixel that they left on. -/
theorem collision_drawn_succ (s : State) (x y : Reg) (n : Nat) :
    (s.drawn x y (n + 1)).collision = true ↔ (s.drawn x y n).collision = true ∨
      ∃ px py, px ≤ 63 ∧ py ≤ 31 ∧ pixel (s.drawn x y n).mem px py = true ∧
        spriteCovers (s.drawn x y n).mem (s.I.toNat + n) (s.reg x).toNat ((s.reg y).toNat + n) 1 px py = true := by
  simp only [drawn_succ, Canvas.collision_drawCols, spriteCovers_one, Nat.lt_succ_iff (n := 63), Nat.lt_succ_iff (n := 31),
    and_comm (b := pixel _ _ _ = true)]

theorem pixel_drawn {s : State} (x y : Reg) {n : Nat} (h : s.I.toNat + n ≤ 0xF00) {px py : Nat} (hx : px ≤ 63) (hy : py ≤ 31) :
    pixel (s.drawn x y n).mem px py =
      (pixel s.mem px py ^^ spriteCovers s.mem s.I.toNat (s.reg x).toNat (s.reg y).toNat n px py) :=
  Canvas.pixel_drawSprite _ _ _ _ h (Nat.lt_succ_of_le hx) (Nat.lt_succ_of_le hy)

theorem collision_drawn {s : State} (x y : Reg) {n : Nat} (h : s.I.toNat + n ≤ 0xF00) :
    (s.drawn x y n).collision = true ↔ ∃ px py, px ≤ 63 ∧ py ≤ 31 ∧ pixel s.mem px py = true ∧
      spriteCovers s.mem s.I.toNat (s.reg x).toNat (s.reg y).toNat n px py = true := by
  rw [State.drawn, Canvas.collision_drawSprite _ _ _ _ h]
  simp only [Bool.false_eq_true, false_or, Nat.lt_succ_iff (n := 63), Nat.lt_succ_iff (n := 31),
    and_comm (b := pixel _ _ _ = true)]

/-! ## The statements -/

/-- Settles O32: the canvas of a sprite outside the framebuffer, pixel by pixel, and its collision flag. -/
theorem drawFlipsThePixelsTheSpriteCovers : Obligations.DrawFlipsThePixelsTheSpriteCovers := by
  intro x y n s h
  obtain ⟨t, hexec, hmem, hVF, hframe⟩ := exec_drw_frame x y (n := n) (s := s) (.inr (by omega))
  refine ⟨(congrArg decode (ofNat_eq_formatXYN 0xD x y n)).trans (decode_drw x y n), t, hexec, fun px py hx hy => ?_, ?_, ?_,
    hframe⟩
  · rw [hmem, pixel_drawn x y h hx hy]
  · rw [hVF]; exact flagByte_reports (collision_drawn x y h)
  · rw [hmem]; exact sameOutsideFramebuffer_drawn s x y n.val

/-- Settles O33: no row leaves the canvas blank, one row more is `drawn_succ`, and a row beyond memory is a fault that
`trapIn` lists. -/
theorem drawGoesRowByRow : Obligations.DrawGoesRowByRow := by
  intro x y s
  refine ⟨?_, fun n m hm hfit => ?_, fun n hpos hout => faultsWith_of_trap (if_pos ⟨hpos, hout⟩)⟩
  · obtain ⟨t, hexec, hmem, hVF, hregs, ht⟩ := exec_drw_frame x y (n := 0) (s := s) (.inl rfl)
    exact ⟨t, hexec, hVF, hregs, by rw [ht, hmem]; rfl⟩
  · obtain ⟨t, htexec, htmem, htVF, -⟩ := exec_drw_frame x y (n := n) (s := s) (by omega)
    obtain ⟨u, huexec, humem, huVF, huframe⟩ := exec_drw_frame x y (n := m) (s := s) (by omega)
    rw [hm] at humem huVF
    refine ⟨t, u, htexec, huexec, fun px py hx hy => ?_, ?_, ?_, huframe⟩
    · rw [humem, htmem, pixel_drawn_succ s x y n.val hx hy]
    · rw [huVF, htVF, htmem]; exact flagByte_reports_or (collision_drawn_succ s x y n.val)
    · rw [humem]; exact sameOutsideFramebuffer_drawn s x y _

/-- Settles O34: drawing again flips the same pixels back, since neither the sprite's bytes nor its place changed. -/
theorem drawingTwiceRestoresMemory : Obligations.DrawingTwiceRestoresMemory := by
  intro x y n s t hx hy hwf h hexec
  obtain ⟨t', hexec', htmem, -, htregs, ht⟩ := exec_drw_frame x y (n := n) (s := s) (.inr (by omega))
  obtain rfl := Host.Outcome.next.inj (hexec.symm.trans hexec')
  have htI : t.I = s.I := by rw [ht]
  have htfit : t.I.toNat + n.val ≤ 0xF00 := htI ▸ h
  have hcovers (px py : Nat) : spriteCovers t.mem t.I.toNat (t.reg x).toNat (t.reg y).toNat n.val px py =
      spriteCovers s.mem s.I.toNat (s.reg x).toNat (s.reg y).toNat n.val px py := by
    rw [htI, htregs x hx, htregs y hy, htmem]
    exact spriteCovers_congr fun j hj => sameOutsideFramebuffer_drawn s x y n.val _ (.inl (by omega))
  obtain ⟨u, huexec, humem, huVF, huregs, hu⟩ := exec_drw_frame x y (n := n) (s := t) (.inr (by omega))
  refine ⟨u, huexec, ?_, ?_, hu.trans (by rw [ht]), fun r hr => (huregs r hr).trans (htregs r hr)⟩
  · have htwf : t.mem.wf := htmem ▸ Canvas.wf_drawSprite _ _ _ _ hwf
    rw [humem]
    refine Memory.ext_of_read (Canvas.wf_drawSprite _ _ _ _ htwf) hwf fun a => ?_
    by_cases ha : 0xF00 ≤ a ∧ a ≤ 0xFFF
    · refine read_eq_of_pixels (fun px hx py hy => ?_) ha
      rw [pixel_drawn x y htfit (by omega) (by omega), hcovers, htmem, pixel_drawn x y h (by omega) (by omega),
        Bool.xor_assoc, Bool.xor_self, Bool.xor_false]
    · rw [sameOutsideFramebuffer_drawn t x y n.val a (by omega), htmem, sameOutsideFramebuffer_drawn s x y n.val a (by omega)]
  · rw [huVF, flagByte_eq_one_iff, collision_drawn x y htfit]
    refine exists₂_congr fun px py => and_congr_right fun hx => and_congr_right fun hy => ?_
    rw [hcovers, htmem, pixel_drawn x y h hx hy]
    refine and_congr_left fun hc => ?_
    rw [hc, Bool.xor_true, Bool.not_eq_true']

end Sys2Proof.Machine
